-- ==== Sys2Proof/Word.lean ====
section
/-! DEFINITION. The widths the spec gives names to (00_scope.md R8, R10, R12). Every value of the engine is
unsigned (R10), so no signed view of any of them exists. -/

namespace Sys2Proof

/-- One memory cell, general register or timer: 8 bits (R20, R29, R32). -/
abbrev Byte := BitVec 8

/-- The pc, the index register I, a stack entry and an instruction word: 16 bits (R24, R25, R27, R80). -/
abbrev Word := BitVec 16

/-- A 4-bit field of an instruction word: imm4, or bits an operation ignores (R82, R94). -/
abbrev Nibble := BitVec 4

/-- A register field (rA, rB): it names general register x[r]; all 16 values are legal (R84). -/
abbrev RegIdx := BitVec 4

/-- A 12-bit address field (addr12), or the 12 bits below the opcode of an Unrecognized word (R82). -/
abbrev Addr12 := BitVec 12

/-- Register 0xF, VF: the flag register by convention, an ordinary register otherwise (R21). -/
def vf : RegIdx := 0xF#4

end Sys2Proof
end

