-- ==== Sys2Proof/Config.lean ====
section
/-! DEFINITION. What the spec leaves to a parameter (00_scope.md R9) and the one free value of the model. The
parameters' default values are in Machine/Params.lean. -/

namespace Sys2Proof

/-- Which instruction field gives the last register index of LoadRegisters Fx65 (R9, R91, R262): `a` is registerA,
the spec's choice (92_eei_decisions.md D10); `b` is registerB, as in the source's original table (90_conflicts.md C2). -/
inductive LoadCountField where
  | a
  | b
  deriving DecidableEq, Repr

/-- The parameters that "a model takes as arguments" (R9), fixed for one machine. -/
structure Params where
  /-- GLYPH_TABLE: the contents of memory 0x050 to 0x09F after `new()`. -/
  glyphTable : Vector Byte 80
  /-- LOAD_COUNT_FIELD. -/
  loadCountField : LoadCountField
  deriving DecidableEq, Repr

/-- FREE VALUE (assumption 2). The third parameter of R9: `random_byte()`, "a free input under no law"; the n-th
draw of a run. It has no body, so a statement that mentions it holds for every sequence of draws. -/
opaque Config.randomByte : Nat → Byte

end Sys2Proof
end

