-- ==== Sys2Proof/Syntax.lean ====
section
/-! DEFINITION. The instruction set as data: one constructor per row of spec/opcode_table.json (30_encoding.md R86),
the four Unrecognized rows among them. The arguments are ALL the bits of the word that the row does not fix, from
the most significant down: operands, and the bits the operation ignores (R94), which are named `z` (and `rb` for the
shifts, which accept a registerB and do not use it). So a word is an instruction and nothing of it is lost, and a
fault record can report its raw bytes (60_exceptions.md R321). -/

namespace Sys2Proof

/-- A tagged operation: what the decoder produces (R3, R81). -/
inductive Instr where
  /-- 0z E0: R140. -/
  | clearScreen (z : Nibble)
  /-- 0z EE, the table's Return: R142. -/
  | ret (z : Nibble)
  /-- 0z 00: R144. -/
  | noOp (z : Nibble)
  /-- 1nnn: R160. -/
  | jump (nnn : Addr12)
  /-- 2nnn: R162. -/
  | call (nnn : Addr12)
  /-- 3xkk: R181. -/
  | skipIfEqualImmediate (ra : RegIdx) (kk : Byte)
  /-- 4xkk: R183. -/
  | skipIfNotEqualImmediate (ra : RegIdx) (kk : Byte)
  /-- 5xyz: R185. -/
  | skipIfRegistersEqual (ra rb : RegIdx) (z : Nibble)
  /-- 6xkk: R200. -/
  | setImmediate (ra : RegIdx) (kk : Byte)
  /-- 7xkk: R202. -/
  | addImmediate (ra : RegIdx) (kk : Byte)
  /-- 8xy0: R220. -/
  | set (ra rb : RegIdx)
  /-- 8xy1: R221. -/
  | or (ra rb : RegIdx)
  /-- 8xy2: R222. -/
  | and (ra rb : RegIdx)
  /-- 8xy3: R223. -/
  | xor (ra rb : RegIdx)
  /-- 8xy4: R224. -/
  | add (ra rb : RegIdx)
  /-- 8xy5: R225. -/
  | subtractAB (ra rb : RegIdx)
  /-- 8xy7: R227. -/
  | subtractBA (ra rb : RegIdx)
  /-- 8xy6, rb unused: R226. -/
  | shiftRight (ra rb : RegIdx)
  /-- 8xyE, rb unused: R228. -/
  | shiftLeft (ra rb : RegIdx)
  /-- 9xyz: R187. -/
  | skipIfRegistersNotEqual (ra rb : RegIdx) (z : Nibble)
  /-- Annn: R250. -/
  | setIndex (nnn : Addr12)
  /-- Bnnn: R164. -/
  | jumpWithOffset (nnn : Addr12)
  /-- Cxkk: R204. -/
  | random (ra : RegIdx) (kk : Byte)
  /-- Dxyn: R281. -/
  | draw (ra rb : RegIdx) (n : Nibble)
  /-- Ex9E: R189. -/
  | skipIfKeyPressed (ra : RegIdx)
  /-- ExA1: R191. -/
  | skipIfKeyNotPressed (ra : RegIdx)
  /-- Fx07: R300. -/
  | readDelay (ra : RegIdx)
  /-- Fx0A: R306. -/
  | getKey (ra : RegIdx)
  /-- Fx15: R302. -/
  | writeDelay (ra : RegIdx)
  /-- Fx18: R304. -/
  | writeSound (ra : RegIdx)
  /-- Fx1E: R252. -/
  | addIndex (ra : RegIdx)
  /-- Fx29: R255. -/
  | setIndexGlyph (ra : RegIdx)
  /-- Fx33: R258. -/
  | storeBCD (ra : RegIdx)
  /-- Fx55: R260. -/
  | storeRegisters (ra : RegIdx)
  /-- Fx65: R262. -/
  | loadRegisters (ra : RegIdx)
  /-- 0rrr, the residual of the 0x0 family: R146. -/
  | unrecognized0 (raw : Addr12)
  /-- 8rrr, the residual of the 0x8 family: R230. -/
  | unrecognized8 (raw : Addr12)
  /-- Errr, the residual of the 0xE family: R193. -/
  | unrecognizedE (raw : Addr12)
  /-- Frrr, the residual of the 0xF family: R310. -/
  | unrecognizedF (raw : Addr12)
  deriving DecidableEq, Repr

end Sys2Proof
end

