-- ==== Sys2Proof/WellFormed.lean ====
section
/-! DEFINITION. Which terms of `Instr` are instructions. Every operand fits its field by its type, so the only check is
that an Unrecognized term really lies in its family's Unrecognized space (30_encoding.md R92). -/

namespace Sys2Proof

/-- byte1 of a 12-bit remainder: bits 7:0 of the word (R82). -/
def rawByte1 (raw : Addr12) : Byte := raw.extractLsb' 0 8

/-- imm4 of a 12-bit remainder: bits 3:0 of the word (R82). -/
def rawImm4 (raw : Addr12) : Nibble := raw.extractLsb' 0 4

/-- op = 0x0: byte1 not in 00, E0, EE (R92). -/
def residual0 (raw : Addr12) : Bool := !([0x00#8, 0xE0#8, 0xEE#8].contains (rawByte1 raw))

/-- op = 0x8: imm4 in 8 to D or F (R92). -/
def residual8 (raw : Addr12) : Bool :=
  [0x8#4, 0x9#4, 0xA#4, 0xB#4, 0xC#4, 0xD#4, 0xF#4].contains (rawImm4 raw)

/-- op = 0xE: byte1 not in 9E, A1 (R92). -/
def residualE (raw : Addr12) : Bool := !([0x9E#8, 0xA1#8].contains (rawByte1 raw))

/-- op = 0xF: byte1 not in 07, 0A, 15, 18, 1E, 29, 33, 55, 65 (R92). -/
def residualF (raw : Addr12) : Bool :=
  !([0x07#8, 0x0A#8, 0x15#8, 0x18#8, 0x1E#8, 0x29#8, 0x33#8, 0x55#8, 0x65#8].contains (rawByte1 raw))

/-- The check: an Unrecognized term holds the raw bits of a word of its family's residual; nothing else can fail. -/
def Instr.wellFormed : Instr → Bool
  | .unrecognized0 raw => residual0 raw
  | .unrecognized8 raw => residual8 raw
  | .unrecognizedE raw => residualE raw
  | .unrecognizedF raw => residualF raw
  | .clearScreen _ | .ret _ | .noOp _ | .jump _ | .call _ => true
  | .skipIfEqualImmediate _ _ | .skipIfNotEqualImmediate _ _ | .skipIfRegistersEqual _ _ _ => true
  | .setImmediate _ _ | .addImmediate _ _ => true
  | .set _ _ | .or _ _ | .and _ _ | .xor _ _ | .add _ _ => true
  | .subtractAB _ _ | .subtractBA _ _ | .shiftRight _ _ | .shiftLeft _ _ => true
  | .skipIfRegistersNotEqual _ _ _ | .setIndex _ | .jumpWithOffset _ | .random _ _ | .draw _ _ _ => true
  | .skipIfKeyPressed _ | .skipIfKeyNotPressed _ => true
  | .readDelay _ | .getKey _ | .writeDelay _ | .writeSound _ => true
  | .addIndex _ | .setIndexGlyph _ | .storeBCD _ | .storeRegisters _ | .loadRegisters _ => true

/-- The four Unrecognized tags (R86, R93). -/
def Instr.isUnrecognized : Instr → Bool
  | .unrecognized0 _ | .unrecognized8 _ | .unrecognizedE _ | .unrecognizedF _ => true
  | .clearScreen _ | .ret _ | .noOp _ | .jump _ | .call _ => false
  | .skipIfEqualImmediate _ _ | .skipIfNotEqualImmediate _ _ | .skipIfRegistersEqual _ _ _ => false
  | .setImmediate _ _ | .addImmediate _ _ => false
  | .set _ _ | .or _ _ | .and _ _ | .xor _ _ | .add _ _ => false
  | .subtractAB _ _ | .subtractBA _ _ | .shiftRight _ _ | .shiftLeft _ _ => false
  | .skipIfRegistersNotEqual _ _ _ | .setIndex _ | .jumpWithOffset _ | .random _ _ | .draw _ _ _ => false
  | .skipIfKeyPressed _ | .skipIfKeyNotPressed _ => false
  | .readDelay _ | .getKey _ | .writeDelay _ | .writeSound _ => false
  | .addIndex _ | .setIndexGlyph _ | .storeBCD _ | .storeRegisters _ | .loadRegisters _ => false

end Sys2Proof
end

