-- ==== Sys2Proof/Decode.lean ====
section
/-! DEFINITION. The decoder and the encoder (30_encoding.md). Decoding is a total function of the two bytes (R81, R95);
a word that matches no defined row becomes the Unrecognized tag of its family, which the executor rejects by a fault.
Tests/Slice0.lean shows each row's decoding on a word written out from the opcode map. -/

namespace Sys2Proof

/-- byte0 and byte1 of an instruction, big-endian (R53, R80): byte0 is bits 15:8. -/
def wordOfBytes (byte0 byte1 : Byte) : Word := byte0 ++ byte1

/-- byte0 of a word: bits 15:8 (R53). -/
def byte0Of (w : Word) : Byte := w.extractLsb' 8 8

/-- byte1 of a word, which is also imm8: bits 7:0 (R53, R82). -/
def byte1Of (w : Word) : Byte := w.extractLsb' 0 8

/-- opcode: bits 15:12 (R82). -/
def opcodeOf (w : Word) : Nibble := w.extractLsb' 12 4

/-- registerA: bits 11:8 (R82). -/
def registerAOf (w : Word) : RegIdx := w.extractLsb' 8 4

/-- registerB: bits 7:4 (R82). -/
def registerBOf (w : Word) : RegIdx := w.extractLsb' 4 4

/-- imm4: bits 3:0 (R82). -/
def imm4Of (w : Word) : Nibble := w.extractLsb' 0 4

/-- addr12: bits 11:0 (R82). -/
def addr12Of (w : Word) : Addr12 := w.extractLsb' 0 12

/-- The 0x0 family: the secondary test reads byte1 only (R87). -/
def decode0 (w : Word) : Instr :=
  if byte1Of w = 0xE0#8 then .clearScreen (registerAOf w)
  else if byte1Of w = 0xEE#8 then .ret (registerAOf w)
  else if byte1Of w = 0x00#8 then .noOp (registerAOf w)
  else .unrecognized0 (addr12Of w)

/-- The 0x8 family: the secondary test reads imm4 (R89). -/
def decode8 (w : Word) : Instr :=
  if imm4Of w = 0x0#4 then .set (registerAOf w) (registerBOf w)
  else if imm4Of w = 0x1#4 then .or (registerAOf w) (registerBOf w)
  else if imm4Of w = 0x2#4 then .and (registerAOf w) (registerBOf w)
  else if imm4Of w = 0x3#4 then .xor (registerAOf w) (registerBOf w)
  else if imm4Of w = 0x4#4 then .add (registerAOf w) (registerBOf w)
  else if imm4Of w = 0x5#4 then .subtractAB (registerAOf w) (registerBOf w)
  else if imm4Of w = 0x6#4 then .shiftRight (registerAOf w) (registerBOf w)
  else if imm4Of w = 0x7#4 then .subtractBA (registerAOf w) (registerBOf w)
  else if imm4Of w = 0xE#4 then .shiftLeft (registerAOf w) (registerBOf w)
  else .unrecognized8 (addr12Of w)

/-- The 0xE family: the secondary test reads byte1 (R90). -/
def decodeE (w : Word) : Instr :=
  if byte1Of w = 0x9E#8 then .skipIfKeyPressed (registerAOf w)
  else if byte1Of w = 0xA1#8 then .skipIfKeyNotPressed (registerAOf w)
  else .unrecognizedE (addr12Of w)

/-- The 0xF family: the secondary test reads byte1, and every operand is registerA (R91). -/
def decodeF (w : Word) : Instr :=
  if byte1Of w = 0x07#8 then .readDelay (registerAOf w)
  else if byte1Of w = 0x0A#8 then .getKey (registerAOf w)
  else if byte1Of w = 0x15#8 then .writeDelay (registerAOf w)
  else if byte1Of w = 0x18#8 then .writeSound (registerAOf w)
  else if byte1Of w = 0x1E#8 then .addIndex (registerAOf w)
  else if byte1Of w = 0x29#8 then .setIndexGlyph (registerAOf w)
  else if byte1Of w = 0x33#8 then .storeBCD (registerAOf w)
  else if byte1Of w = 0x55#8 then .storeRegisters (registerAOf w)
  else if byte1Of w = 0x65#8 then .loadRegisters (registerAOf w)
  else .unrecognizedF (addr12Of w)

/-- The decoder: dispatch by the primary nibble, four of whose values carry a secondary dispatch (R85, R86). The last
arm is op = 0xF, the one value of four bits not named above it. -/
def decode (w : Word) : Instr :=
  match opcodeOf w with
  | 0x0#4 => decode0 w
  | 0x1#4 => .jump (addr12Of w)
  | 0x2#4 => .call (addr12Of w)
  | 0x3#4 => .skipIfEqualImmediate (registerAOf w) (byte1Of w)
  | 0x4#4 => .skipIfNotEqualImmediate (registerAOf w) (byte1Of w)
  | 0x5#4 => .skipIfRegistersEqual (registerAOf w) (registerBOf w) (imm4Of w)
  | 0x6#4 => .setImmediate (registerAOf w) (byte1Of w)
  | 0x7#4 => .addImmediate (registerAOf w) (byte1Of w)
  | 0x8#4 => decode8 w
  | 0x9#4 => .skipIfRegistersNotEqual (registerAOf w) (registerBOf w) (imm4Of w)
  | 0xA#4 => .setIndex (addr12Of w)
  | 0xB#4 => .jumpWithOffset (addr12Of w)
  | 0xC#4 => .random (registerAOf w) (byte1Of w)
  | 0xD#4 => .draw (registerAOf w) (registerBOf w) (imm4Of w)
  | 0xE#4 => decodeE w
  | _ => decodeF w

/-- The decoder on the bytes of memory (R53, R80, R123). -/
def decodeBytes (byte0 byte1 : Byte) : Instr := decode (wordOfBytes byte0 byte1)

/-- A word of the form op, x, y, n (R82). -/
def wordXYN (op x y n : Nibble) : Word := op ++ x ++ y ++ n

/-- A word of the form op, x, kk (R82). -/
def wordXKK (op x : Nibble) (kk : Byte) : Word := op ++ x ++ kk

/-- A word of the form op, nnn (R82). -/
def wordNNN (op : Nibble) (nnn : Addr12) : Word := op ++ nnn

/-- The encoder: the word of an instruction, written from the opcode map and the word column of R86 and R96. -/
def encode : Instr → Word
  | .clearScreen z => wordXKK 0x0 z 0xE0
  | .ret z => wordXKK 0x0 z 0xEE
  | .noOp z => wordXKK 0x0 z 0x00
  | .jump nnn => wordNNN 0x1 nnn
  | .call nnn => wordNNN 0x2 nnn
  | .skipIfEqualImmediate ra kk => wordXKK 0x3 ra kk
  | .skipIfNotEqualImmediate ra kk => wordXKK 0x4 ra kk
  | .skipIfRegistersEqual ra rb z => wordXYN 0x5 ra rb z
  | .setImmediate ra kk => wordXKK 0x6 ra kk
  | .addImmediate ra kk => wordXKK 0x7 ra kk
  | .set ra rb => wordXYN 0x8 ra rb 0x0
  | .or ra rb => wordXYN 0x8 ra rb 0x1
  | .and ra rb => wordXYN 0x8 ra rb 0x2
  | .xor ra rb => wordXYN 0x8 ra rb 0x3
  | .add ra rb => wordXYN 0x8 ra rb 0x4
  | .subtractAB ra rb => wordXYN 0x8 ra rb 0x5
  | .subtractBA ra rb => wordXYN 0x8 ra rb 0x7
  | .shiftRight ra rb => wordXYN 0x8 ra rb 0x6
  | .shiftLeft ra rb => wordXYN 0x8 ra rb 0xE
  | .skipIfRegistersNotEqual ra rb z => wordXYN 0x9 ra rb z
  | .setIndex nnn => wordNNN 0xA nnn
  | .jumpWithOffset nnn => wordNNN 0xB nnn
  | .random ra kk => wordXKK 0xC ra kk
  | .draw ra rb n => wordXYN 0xD ra rb n
  | .skipIfKeyPressed ra => wordXKK 0xE ra 0x9E
  | .skipIfKeyNotPressed ra => wordXKK 0xE ra 0xA1
  | .readDelay ra => wordXKK 0xF ra 0x07
  | .getKey ra => wordXKK 0xF ra 0x0A
  | .writeDelay ra => wordXKK 0xF ra 0x15
  | .writeSound ra => wordXKK 0xF ra 0x18
  | .addIndex ra => wordXKK 0xF ra 0x1E
  | .setIndexGlyph ra => wordXKK 0xF ra 0x29
  | .storeBCD ra => wordXKK 0xF ra 0x33
  | .storeRegisters ra => wordXKK 0xF ra 0x55
  | .loadRegisters ra => wordXKK 0xF ra 0x65
  | .unrecognized0 raw => wordNNN 0x0 raw
  | .unrecognized8 raw => wordNNN 0x8 raw
  | .unrecognizedE raw => wordNNN 0xE raw
  | .unrecognizedF raw => wordNNN 0xF raw

/-- The raw bytes of an instruction, byte0 first, as a fault record reports them (R53, R321). -/
def Instr.bytes (i : Instr) : Byte × Byte := (byte0Of (encode i), byte1Of (encode i))

/-- The host's question: the instruction read from the bits `w`, bit 0 the least significant bit of the one 16-bit word.
A number of 17 bits or more is no instruction of this machine, whose instructions are all 16 bits long (R80). -/
def decodeTableWord (nbits w : Nat) : Option Instr :=
  if nbits ≤ 16 ∧ w < 2 ^ 16 then some (decodeBytes (byte0Of (BitVec.ofNat 16 w)) (byte1Of (BitVec.ofNat 16 w)))
  else none

end Sys2Proof
end

