-- ==== Sys2Proof/Machine/Params.lean ====
section
/-! DEFINITION. The default values of the parameters of 00_scope.md R9, and the reset contents of memory they give. -/

namespace Sys2Proof.Machine

/-- Glyphs 0 to 3 of the default table, five rows each, top row first (92_eei_decisions.md D18). -/
def glyphs0to3 : List Byte :=
  [0xF0, 0x90, 0x90, 0x90, 0xF0, 0x20, 0x60, 0x20, 0x20, 0x70,
   0xF0, 0x10, 0xF0, 0x80, 0xF0, 0xF0, 0x10, 0xF0, 0x10, 0xF0]

/-- Glyphs 4 to 7 (D18). -/
def glyphs4to7 : List Byte :=
  [0x90, 0x90, 0xF0, 0x10, 0x10, 0xF0, 0x80, 0xF0, 0x10, 0xF0,
   0xF0, 0x80, 0xF0, 0x90, 0xF0, 0xF0, 0x10, 0x20, 0x40, 0x40]

/-- Glyphs 8 to B (D18). -/
def glyphs8toB : List Byte :=
  [0xF0, 0x90, 0xF0, 0x90, 0xF0, 0xF0, 0x90, 0xF0, 0x10, 0xF0,
   0xF0, 0x90, 0xF0, 0x90, 0x90, 0xE0, 0x90, 0xE0, 0x90, 0xE0]

/-- Glyphs C to F (D18). -/
def glyphsCtoF : List Byte :=
  [0xF0, 0x80, 0x80, 0x80, 0xF0, 0xE0, 0x90, 0x90, 0x90, 0xE0,
   0xF0, 0x80, 0xF0, 0x80, 0xF0, 0xF0, 0x80, 0xF0, 0x80, 0x80]

/-- The default GLYPH_TABLE (R9, D18; PRESUMED by the spec itself, assumption 4). -/
def defaultGlyphTable : Vector Byte 80 :=
  ⟨(glyphs0to3 ++ glyphs4to7 ++ glyphs8toB ++ glyphsCtoF).toArray, rfl⟩

/-- The default parameters: the default font, and registerA as the count field of LoadRegisters (R9, D10). -/
def defaultParams : Params := { glyphTable := defaultGlyphTable, loadCountField := .a }

/-- What an address that memory does not list reads as: the contents `new()` gives it, which are the glyph table in
0x050 to 0x09F and zero everywhere else (R37, R38, R51). -/
def resetByte (p : Params) (a : Nat) : Byte :=
  if h : 0x050 ≤ a ∧ a < 0x050 + 80 then p.glyphTable[a - 0x050]'(by omega) else 0x00#8

end Sys2Proof.Machine
end

