-- ==== Sys2Proof/Machine/State.lean ====
section
/-! DEFINITION. The machine state as plain data (10_state.md), the fault record, the outcomes a step can end in, and
the state after `new()`. Every piece of state the spec names is a field; the last two fields are the model's own. -/

namespace Sys2Proof.Machine

/-- Memory (R32): the (address, byte) pairs of the addresses whose byte differs from what `new()` left there, in rising
order of address. -/
abbrev Memory := List Host.Cell

/-- The faults the spec names (60_exceptions.md R320). -/
inductive FaultKind where
  /-- Code 1: the executed word is in the Unrecognized space. -/
  | unrecognizedInstruction
  /-- Code 2: the pc before the fetch is above 0x0FFE. -/
  | fetchOutOfBounds
  /-- Code 3: a data access above 0xFFF. -/
  | memoryOutOfBounds
  /-- Code 4: Call with 48 entries held. -/
  | stackOverflow
  /-- Code 5: Return with the stack empty. -/
  | stackUnderflow
  /-- Code 6: `load` with more than 3584 bytes; reported by the host operation, never by a step. -/
  | loadTooLarge
  deriving DecidableEq, Repr

/-- The fault record `{kind, addr, bytes, data_addr}` (R321). -/
structure FaultRecord where
  kind : FaultKind
  /-- The address of the instruction the step fetched or tried to fetch. -/
  addr : Word
  /-- Its raw bytes; absent for FetchOutOfBounds. -/
  bytes : Option (Byte × Byte)
  /-- The first out-of-bounds data address of MemoryOutOfBounds; absent otherwise. Not reduced modulo anything (R55). -/
  dataAddr : Option Nat
  deriving DecidableEq, Repr

/-- The machine state (R20 to R36). -/
structure State where
  /-- The general registers x[0] to x[15] (R20). -/
  x : Vector Byte 16
  /-- The index register (R24). -/
  I : Word
  /-- The program counter (R25). -/
  pc : Word
  /-- The number of stack entries in use, 0 to 48 (R27). -/
  sp : Fin 49
  /-- The call stack, entry 0 the oldest (R27). -/
  stack : Vector Word 48
  /-- The delay timer (R29). -/
  DT : Byte
  /-- The sound timer (R29). -/
  ST : Byte
  /-- The framebuffer, row-major: column c of row r is cell r * 64 + c (R30). -/
  fb : Vector Bool 2048
  /-- The key state: true is pressed (R31). -/
  keys : Vector Bool 16
  /-- Memory (R32). -/
  mem : Memory
  /-- The fault status (R33). -/
  fault : Option FaultRecord
  /-- MODEL'S OWN (assumption 3): the parameters of R9, which no step and no host operation changes. -/
  params : Params
  /-- MODEL'S OWN (assumption 2): how many draws of `random_byte()` the run has taken. -/
  draws : Nat
  deriving DecidableEq, Repr

/-- The reasons a step stops. -/
inductive Fault where
  /-- Raised by `step`, and by it alone, on a machine whose fault status is set: "no step happens while it is set" (R33,
  R127, R327). SAFE: the spec gives that state no transition. The step that RAISES a fault of R320 is not this one: it
  answers a next state, in which the record is set (R326, assumption 1). -/
  | halted (record : FaultRecord)
  deriving DecidableEq, Repr

/-- The reasons a step is refused. -/
inductive Refusal where
  /-- An instruction with no meaning yet; no arm of `exec` uses it. SAFE. -/
  | notModelled (mnemonic : String)
  deriving DecidableEq, Repr

/-- `new()` for a machine with the parameters `p` (R37, R38, R360). -/
def State.resetWith (p : Params) : State :=
  { x := Vector.replicate 16 0x00#8
    I := 0x0000#16
    pc := 0x0000#16
    sp := 0
    stack := Vector.replicate 48 0x0000#16
    DT := 0x00#8
    ST := 0x00#8
    fb := Vector.replicate 2048 false
    keys := Vector.replicate 16 false
    mem := []
    fault := none
    params := p
    draws := 0 }

/-- The machine right after `new()`, with the default parameters (R9, R38). -/
def State.reset : State := State.resetWith defaultParams

end Sys2Proof.Machine
end

