-- ==== Sys2Proof/Machine/Ops.lean ====
section
/-! DEFINITION. The named operations over registers, memory, stack, framebuffer, timers and keys, and taking a fault.
Every meaning reads and writes the state through these. -/

namespace Sys2Proof.Machine

/-! Memory -/

/-- The byte at `a`: the listed one, or what `base` gives an unlisted address. -/
def Memory.read (base : Nat → Byte) (m : Memory) (a : Nat) : Byte :=
  match m with
  | [] => base a
  | (b, v) :: rest => if b = a then v else Memory.read base rest a

/-- Store `v` at `a`, keeping the list strictly rising and free of entries equal to `base`. -/
def Memory.write (base : Nat → Byte) (m : Memory) (a : Nat) (v : Byte) : Memory :=
  match m with
  | [] => if v = base a then [] else [(a, v)]
  | (b, w) :: rest =>
    if a < b then (if v = base a then (b, w) :: rest else (a, v) :: (b, w) :: rest)
    else if a = b then (if v = base a then rest else (a, v) :: rest)
    else (b, w) :: Memory.write base rest a v

/-- The canonical form: strictly rising addresses, all of them in 0x000 to 0xFFF (R50), and no entry equal to what an
unlisted address reads as. -/
abbrev Memory.wf (base : Nat → Byte) (m : Memory) : Prop :=
  List.Pairwise (fun c d => c.1 < d.1) m ∧ ∀ c ∈ m, c.1 ≤ 0xFFF ∧ c.2 ≠ base c.1

/-- The byte of memory at address `a` (R32, R57). -/
def State.readByte (s : State) (a : Nat) : Byte := Memory.read (resetByte s.params) s.mem a

/-- Store the byte `v` at address `a` (R52: every address is writable). -/
def State.writeByte (s : State) (a : Nat) (v : Byte) : State :=
  { s with mem := Memory.write (resetByte s.params) s.mem a v }

/-- MemRead(ea, 1): the byte, or the address of an access out of bounds (R11, R55). -/
def State.memRead (s : State) (ea : Nat) : Except Nat Byte :=
  if ea ≤ 0xFFF then .ok (s.readByte ea) else .error ea

/-- MemWrite(ea, 1, v): the state after the store, or the address of an access out of bounds (R11, R55). -/
def State.memWrite (s : State) (ea : Nat) (v : Byte) : Except Nat State :=
  if ea ≤ 0xFFF then .ok (s.writeByte ea v) else .error ea

/-- One-byte stores of `vs` at ea, ea + 1, …, in that order, up to the first one out of bounds (R54, R55). -/
def State.storeBytes (s : State) (ea : Nat) : List Byte → Except Nat State
  | [] => .ok s
  | v :: vs =>
    match s.memWrite ea v with
    | .error bad => .error bad
    | .ok t => t.storeBytes (ea + 1) vs

/-- The bytes of an instruction in a row at `a`, big-endian (R53). -/
def State.wordAt (s : State) (a : Nat) : Word := wordOfBytes (s.readByte a) (s.readByte (a + 1))

/-- The fetch: the word at the pc when both its bytes are in memory (R120, R121). -/
def State.fetch (s : State) : Option Word :=
  if s.pc.toNat ≤ 0x0FFE then some (s.wordAt s.pc.toNat) else none

/-- Place the word `w` where the next fetch reads it; where there is no such place (the pc is above 0x0FFE) nothing is
placed. -/
def State.placeWord (s : State) (w : Word) : State :=
  if s.pc.toNat ≤ 0x0FFE then
    (s.writeByte s.pc.toNat (byte0Of w)).writeByte (s.pc.toNat + 1) (byte1Of w)
  else s

/-! Registers -/

/-- x[r] (R11, R20). -/
def State.readReg (s : State) (r : RegIdx) : Byte := s.x[r.toNat]'r.isLt

/-- x[r] <- v (R11, R20); no register is hardwired. -/
def State.writeReg (s : State) (r : RegIdx) (v : Byte) : State := { s with x := s.x.set r.toNat v r.isLt }

/-- I <- v (R24). -/
def State.setI (s : State) (v : Word) : State := { s with I := v }

/-- pc <- v (R25). -/
def State.setPc (s : State) (v : Word) : State := { s with pc := v }

/-- The fetch's advance, and a taken skip's: pc <- pc + 2 (R122, R180). -/
def State.advancePc (s : State) : State := s.setPc (s.pc + 2#16)

/-- GetKey's rewind: pc <- pc - 2 (R306). -/
def State.rewindPc (s : State) : State := s.setPc (s.pc - 2#16)

/-- a0, the address of the instruction being executed: the pc is already past it (R122). -/
def State.a0 (s : State) : Word := s.pc - 2#16

/-- Skip() when the condition holds, nothing otherwise (R180). -/
def State.skipIf (s : State) (cond : Bool) : State := if cond then s.advancePc else s

/-! Call stack -/

/-- Push: nothing when all 48 entries are in use (R28). -/
def State.push (s : State) (v : Word) : Option State :=
  if h : s.sp.val < 48 then
    some { s with stack := s.stack.set s.sp.val v h, sp := ⟨s.sp.val + 1, by omega⟩ }
  else none

/-- Pop: the newest entry and the state without it; nothing when the stack is empty. The entry keeps its value in the
array (R28). -/
def State.pop (s : State) : Option (Word × State) :=
  if h : s.sp.val = 0 then none
  else some (s.stack[s.sp.val - 1]'(by omega), { s with sp := ⟨s.sp.val - 1, by omega⟩ })

/-! Timers, keys and framebuffer -/

/-- DT <- v (R29). -/
def State.setDT (s : State) (v : Byte) : State := { s with DT := v }

/-- ST <- v (R29). -/
def State.setST (s : State) (v : Byte) : State := { s with ST := v }

/-- Is key k pressed (R31)? -/
def State.keyPressed (s : State) (k : BitVec 4) : Bool := s.keys[k.toNat]'k.isLt

/-- Make key k pressed or released; only the host does so (R31, R341). -/
def State.writeKey (s : State) (k : BitVec 4) (pressed : Bool) : State :=
  { s with keys := s.keys.set k.toNat pressed k.isLt }

/-- fb[j], 0 <= j <= 2047 (R30). There is no cell past 2047 and no instruction names one (R283). -/
def State.pixel (s : State) (j : Nat) : Bool := s.fb[j]?.getD false

/-- fb[j] <- v, 0 <= j <= 2047 (R30). -/
def State.setPixel (s : State) (j : Nat) (v : Bool) : State := { s with fb := s.fb.setIfInBounds j v }

/-- Every cell <- 0 (R140). -/
def State.clearDisplay (s : State) : State := { s with fb := Vector.replicate 2048 false }

/-- The next draw of `random_byte()` (R11, R204): a free value, and the counter that makes every draw a fresh one. -/
def State.drawRandom (s : State) : Byte × State := (Config.randomByte s.draws, { s with draws := s.draws + 1 })

/-! Taking a fault. There is no vector, no handler and no saved register (R325), and no return from a fault (R327), so
nothing stands beside it. -/

/-- Fault entry: the pc is that of the instruction, the record is set, and nothing else of the state changes (R326). -/
def State.takeFault (s : State) (r : FaultRecord) : State := { s with pc := r.addr, fault := some r }

/-- The record of a fault that instruction `i` raises at `a0` (R321). -/
def faultRecordOf (i : Instr) (kind : FaultKind) (a0 : Word) (dataAddr : Option Nat) : FaultRecord :=
  { kind := kind, addr := a0, bytes := some i.bytes, dataAddr := dataAddr }

/-- raise <Fault>: `s` is the state the instruction started from, so nothing the instruction wrote is kept (R11, R126,
R326). -/
def State.raise (s : State) (i : Instr) (kind : FaultKind) (dataAddr : Option Nat) :
    Host.Outcome State Fault Refusal :=
  .next (s.takeFault (faultRecordOf i kind s.a0 dataAddr))

/-- The end of an instruction that reaches memory: its result, or MemoryOutOfBounds at the first address out of bounds
(R55, R321). -/
def State.finishAccess (s : State) (i : Instr) : Except Nat State → Host.Outcome State Fault Refusal
  | .ok t => .next t
  | .error ea => s.raise i .memoryOutOfBounds (some ea)

/-- The step whose fetch is out of bounds: FetchOutOfBounds(a0), with no bytes (R121, R321). -/
def State.takeFetchFault (s : State) : State :=
  s.takeFault { kind := .fetchOutOfBounds, addr := s.pc, bytes := none, dataAddr := none }

end Sys2Proof.Machine
end

