-- ==== Sys2Proof/Machine/Flags.lean ====
section
/-! DEFINITION. The results and flags of the 0x8 family and of AddIndex: operands as unbounded integers, the exact
result, then the wrap written out (R11, R219). The flag is a byte, 0 or 1, for register 0xF (R21, R23). -/

namespace Sys2Proof.Machine

/-- 1 when the condition holds, else 0: a flag as a register value. -/
def flagByte (cond : Bool) : Byte := if cond then 0x01#8 else 0x00#8

/-- (a + b) mod 256 (R202, R224). -/
def addResult (a b : Byte) : Byte := BitVec.ofNat 8 ((a.toNat + b.toNat) % 256)

/-- Carry: the sum exceeds 255 (R224). -/
def addCarry (a b : Byte) : Byte := flagByte (decide (a.toNat + b.toNat > 255))

/-- (a - b + 256) mod 256 (R225, R227). -/
def subResult (a b : Byte) : Byte := BitVec.ofNat 8 ((a.toNat + 256 - b.toNat) % 256)

/-- No borrow: a >= b, equal operands included (R225, R227; assumption 18). -/
def subNoBorrow (a b : Byte) : Byte := flagByte (decide (a.toNat ≥ b.toNat))

/-- The bit ShiftRight shifts out: bit 0 (R226). -/
def shiftRightOut (a : Byte) : Byte := a &&& 0x01#8

/-- The bit ShiftLeft shifts out: bit 7 (R228). -/
def shiftLeftOut (a : Byte) : Byte := (a >>> 7) &&& 0x01#8

/-- a >> 1 (R226). -/
def shiftRightResult (a : Byte) : Byte := a >>> 1

/-- (a << 1) mod 256 (R228). -/
def shiftLeftResult (a : Byte) : Byte := a <<< 1

/-- x[rA] <- result, then x[0xF] <- flag: the flag is written last, so it stays when rA = 0xF (R219). -/
def State.writeResultThenFlag (s : State) (ra : RegIdx) (result flag : Byte) : State :=
  (s.writeReg ra result).writeReg vf flag

/-- x[0xF] <- flag, then x[rA] <- f (x[rA]), with x[rA] read after the flag write (R226, R228; assumption 12). -/
def State.writeFlagThenShift (s : State) (ra : RegIdx) (flag : Byte) (f : Byte → Byte) : State :=
  let t := s.writeReg vf flag
  t.writeReg ra (f (t.readReg ra))

/-- I + x[rA] on unbounded integers (R252). -/
def State.indexSum (s : State) (ra : RegIdx) : Nat := s.I.toNat + (s.readReg ra).toNat

/-- The sum is past 0xFFF (R252). -/
def indexOverflows (sum : Nat) : Bool := decide (sum > 0x0FFF)

end Sys2Proof.Machine
end

