-- ==== Sys2Proof/Machine/Operands.lean ====
section
/-! DEFINITION. The operand forms: immediates, the one addressing mode, key and coordinate selection, the register
range of a block transfer. -/

namespace Sys2Proof.Machine

/-- zext_16(addr12): an address field as a pc or I value (R83). -/
def zext16OfAddr (nnn : Addr12) : Word := nnn.setWidth 16

/-- zext_16 of a register value (R11, R164). -/
def zext16OfByte (v : Byte) : Word := v.setWidth 16

/-- The low nibble of a register value: v & 0xF as a key or glyph number (R189, R255). -/
def lowNibble (v : Byte) : BitVec 4 := v.extractLsb' 0 4

/-- The only addressing mode: I + offset on unbounded integers (R55; 46_index_memory.md, opening). -/
def State.indexAddr (s : State) (offset : Nat) : Nat := s.I.toNat + offset

/-- The address of glyph d: 0x0050 + 5 * d (R51, R255). -/
def glyphAddr (d : BitVec 4) : Word := BitVec.ofNat 16 (0x0050 + 5 * d.toNat)

/-- The start column of a sprite: x[rA] mod 64 (R281). -/
def State.startColumn (s : State) (ra : RegIdx) : Nat := (s.readReg ra).toNat % 64

/-- The start row of a sprite: x[rB] mod 32 (R281). -/
def State.startRow (s : State) (rb : RegIdx) : Nat := (s.readReg rb).toNat % 32

/-- N of LoadRegisters: rA, or under LOAD_COUNT_FIELD = B the word's registerB, which is 6 in every Fx65 (R262). -/
def loadCount (f : LoadCountField) (ra : RegIdx) : Nat :=
  match f with
  | .a => ra.toNat
  | .b => (registerBOf (encode (.loadRegisters ra))).toNat

/-- x[0], …, x[n]: what StoreRegisters stores (R260). -/
def State.regsUpTo (s : State) (n : Nat) : List Byte :=
  (List.range (n + 1)).map fun k => s.readReg (BitVec.ofNat 4 k)

/-- The three decimal digits of a byte, hundreds first (R258). -/
def bcdDigits (v : Byte) : List Byte :=
  [BitVec.ofNat 8 (v.toNat / 100), BitVec.ofNat 8 (v.toNat / 10 % 10), BitVec.ofNat 8 (v.toNat % 10)]

end Sys2Proof.Machine
end

