-- ==== Sys2Proof/Machine/Alu.lean ====
section
/-! DEFINITION. Opcode 0x8 family (45_alu.md). Every meaning runs after the
fetch and the advance of 40_step_cycle.md R120: on entry the pc is a0 + 2. -/

namespace Sys2Proof.Machine

/-- Set (R220): x[rA] <- x[rB]. -/
def execSet (ra rb : RegIdx) (s : State) : Host.Outcome State Fault Refusal :=
  .next (s.writeReg ra (s.readReg rb))

/-- Or (R221): no flag. -/
def execOr (ra rb : RegIdx) (s : State) : Host.Outcome State Fault Refusal :=
  .next (s.writeReg ra (s.readReg ra ||| s.readReg rb))

/-- And (R222): no flag. -/
def execAnd (ra rb : RegIdx) (s : State) : Host.Outcome State Fault Refusal :=
  .next (s.writeReg ra (s.readReg ra &&& s.readReg rb))

/-- Xor (R223): no flag. -/
def execXor (ra rb : RegIdx) (s : State) : Host.Outcome State Fault Refusal :=
  .next (s.writeReg ra (s.readReg ra ^^^ s.readReg rb))

/-- Add (R224): the sum to x[rA], then the carry to VF. -/
def execAdd (ra rb : RegIdx) (s : State) : Host.Outcome State Fault Refusal :=
  .next (s.writeResultThenFlag ra (addResult (s.readReg ra) (s.readReg rb)) (addCarry (s.readReg ra) (s.readReg rb)))

/-- SubtractAB (R225): x[rA] - x[rB] to x[rA], then no-borrow to VF. -/
def execSubtractAB (ra rb : RegIdx) (s : State) : Host.Outcome State Fault Refusal :=
  .next (s.writeResultThenFlag ra (subResult (s.readReg ra) (s.readReg rb))
    (subNoBorrow (s.readReg ra) (s.readReg rb)))

/-- SubtractBA (R227): x[rB] - x[rA] to x[rA], then no-borrow to VF. -/
def execSubtractBA (ra rb : RegIdx) (s : State) : Host.Outcome State Fault Refusal :=
  .next (s.writeResultThenFlag ra (subResult (s.readReg rb) (s.readReg ra))
    (subNoBorrow (s.readReg rb) (s.readReg ra)))

/-- ShiftRight (R226): bit 0 to VF, then x[rA] shifted; rB is unused (R94). -/
def execShiftRight (ra _rb : RegIdx) (s : State) : Host.Outcome State Fault Refusal :=
  .next (s.writeFlagThenShift ra (shiftRightOut (s.readReg ra)) shiftRightResult)

/-- ShiftLeft (R228): bit 7 to VF, then x[rA] shifted; rB is unused (R94). -/
def execShiftLeft (ra _rb : RegIdx) (s : State) : Host.Outcome State Fault Refusal :=
  .next (s.writeFlagThenShift ra (shiftLeftOut (s.readReg ra)) shiftLeftResult)

end Sys2Proof.Machine
end

