-- ==== Sys2Proof/Machine/Draw.lean ====
section
/-! DEFINITION. The sprite XOR-draw-and-collision unit (47_draw.md). Every meaning runs after the
fetch and the advance of 40_step_cycle.md R120: on entry the pc is a0 + 2. -/

namespace Sys2Proof.Machine

/-- One sprite bit on cell j: a set bit turns a 1 into a 0 and reports the collision in VF, and a 0 into a 1; a clear bit
changes nothing (R281, R284). -/
def State.drawBit (s : State) (bit : Bool) (j : Nat) : State :=
  if bit then
    if s.pixel j then (s.setPixel j false).writeReg vf 0x01#8 else s.setPixel j true
  else s

/-- One sprite row at framebuffer row y, over the columns `cs`: bit 7 is the leftmost (R280), and the row stops at the
right edge (R281, R283). -/
def State.drawRow (s : State) (row : Byte) (cx y : Nat) : List Nat → State
  | [] => s
  | c :: cs =>
    if cx + c ≥ 64 then s
    else (s.drawBit (row.getLsbD (7 - c)) (y * 64 + (cx + c))).drawRow row cx y cs

/-- The sprite rows `rs`: each row on screen is read and drawn, and the sprite stops at the bottom edge (R281, R282). -/
def State.drawRows (s : State) (cx cy : Nat) : List Nat → Except Nat State
  | [] => .ok s
  | r :: rs =>
    if cy + r ≥ 32 then .ok s
    else
      match s.memRead (s.indexAddr r) with
      | .error bad => .error bad
      | .ok row => (s.drawRow row cx (cy + r) (List.range 8)).drawRows cx cy rs

/-- Draw (R281): the coordinates are read, VF <- 0, then imm4 rows from memory at I are drawn. -/
def execDraw (ra rb : RegIdx) (n : Nibble) (s : State) : Host.Outcome State Fault Refusal :=
  s.finishAccess (.draw ra rb n)
    ((s.writeReg vf 0x00#8).drawRows (s.startColumn ra) (s.startRow rb) (List.range n.toNat))

end Sys2Proof.Machine
end

