-- ==== Sys2Proof/Machine/Immediate.lean ====
section
/-! DEFINITION. Register-immediate operations (44_immediate.md). Every meaning runs after the
fetch and the advance of 40_step_cycle.md R120: on entry the pc is a0 + 2. -/

namespace Sys2Proof.Machine

/-- SetImmediate (R200): x[rA] <- imm8. -/
def execSetImmediate (ra : RegIdx) (kk : Byte) (s : State) : Host.Outcome State Fault Refusal :=
  .next (s.writeReg ra kk)

/-- AddImmediate (R202): x[rA] <- (x[rA] + imm8) mod 256, no flag. -/
def execAddImmediate (ra : RegIdx) (kk : Byte) (s : State) : Host.Outcome State Fault Refusal :=
  .next (s.writeReg ra (addResult (s.readReg ra) kk))

/-- Random (R204): one draw, masked by imm8. The draw is a free value (assumption 2). -/
def execRandom (ra : RegIdx) (kk : Byte) (s : State) : Host.Outcome State Fault Refusal :=
  .next (s.drawRandom.2.writeReg ra (s.drawRandom.1 &&& kk))

end Sys2Proof.Machine
end

