-- ==== Sys2Proof/Machine/IndexMemory.lean ====
section
/-! DEFINITION. Index register and memory transfers (46_index_memory.md). Every meaning runs after the
fetch and the advance of 40_step_cycle.md R120: on entry the pc is a0 + 2. -/

namespace Sys2Proof.Machine

/-- SetIndex (R250): I <- zext_16(addr12). -/
def execSetIndex (nnn : Addr12) (s : State) : Host.Outcome State Fault Refusal :=
  .next (s.setI (zext16OfAddr nnn))

/-- AddIndex (R252): I <- the sum mod 65536; then VF <- 1 if the sum is above 0xFFF, and VF is not written otherwise. -/
def execAddIndex (ra : RegIdx) (s : State) : Host.Outcome State Fault Refusal :=
  let t := s.setI (BitVec.ofNat 16 (s.indexSum ra))
  .next (if indexOverflows (s.indexSum ra) then t.writeReg vf 0x01#8 else t)

/-- SetIndexGlyph (R255): I <- the address of the glyph of the low nibble of x[rA]; no memory is read. -/
def execSetIndexGlyph (ra : RegIdx) (s : State) : Host.Outcome State Fault Refusal :=
  .next (s.setI (glyphAddr (lowNibble (s.readReg ra))))

/-- StoreBCD (R258): hundreds, tens and ones to I, I + 1, I + 2; I is unchanged. -/
def execStoreBCD (ra : RegIdx) (s : State) : Host.Outcome State Fault Refusal :=
  s.finishAccess (.storeBCD ra) (s.storeBytes (s.indexAddr 0) (bcdDigits (s.readReg ra)))

/-- StoreRegisters (R260): x[0] to x[rA] to I to I + rA; I is unchanged. -/
def execStoreRegisters (ra : RegIdx) (s : State) : Host.Outcome State Fault Refusal :=
  s.finishAccess (.storeRegisters ra) (s.storeBytes (s.indexAddr 0) (s.regsUpTo ra.toNat))

/-- The loop of LoadRegisters over the register numbers `ks`: x[k] <- MemRead(I + k, 1) (R262). -/
def State.loadLoop (s : State) : List Nat → Except Nat State
  | [] => .ok s
  | k :: ks =>
    match s.memRead (s.indexAddr k) with
    | .error bad => .error bad
    | .ok v => (s.writeReg (BitVec.ofNat 4 k) v).loadLoop ks

/-- LoadRegisters (R262): x[0] to x[N] from I to I + N; I is unchanged. N is rA, or 6 under LOAD_COUNT_FIELD = B. -/
def execLoadRegisters (ra : RegIdx) (s : State) : Host.Outcome State Fault Refusal :=
  s.finishAccess (.loadRegisters ra) (s.loadLoop (List.range (loadCount s.params.loadCountField ra + 1)))

end Sys2Proof.Machine
end

