-- ==== Sys2Proof/Machine/Jumps.lean ====
section
/-! DEFINITION. Jumps and calls (42_jumps_calls.md). Every meaning runs after the
fetch and the advance of 40_step_cycle.md R120: on entry the pc is a0 + 2. -/

namespace Sys2Proof.Machine

/-- Jump (R160): pc <- zext_16(addr12); the target is not checked here (R121). -/
def execJump (nnn : Addr12) (s : State) : Host.Outcome State Fault Refusal :=
  .next (s.setPc (zext16OfAddr nnn))

/-- Call (R162): push the post-fetch pc, then pc <- zext_16(addr12); StackOverflow when 48 entries are held. -/
def execCall (nnn : Addr12) (s : State) : Host.Outcome State Fault Refusal :=
  match s.push s.pc with
  | none => s.raise (.call nnn) .stackOverflow none
  | some t => .next (t.setPc (zext16OfAddr nnn))

/-- JumpWithOffset (R164): pc <- zext_16(x[0]) + zext_16(addr12), at most 0x10FE, not masked. -/
def execJumpWithOffset (nnn : Addr12) (s : State) : Host.Outcome State Fault Refusal :=
  .next (s.setPc (zext16OfByte (s.readReg 0x0#4) + zext16OfAddr nnn))

end Sys2Proof.Machine
end

