-- ==== Sys2Proof/Machine/Skips.lean ====
section
/-! DEFINITION. Conditional skips (43_skips.md). Every meaning runs after the
fetch and the advance of 40_step_cycle.md R120: on entry the pc is a0 + 2. -/

namespace Sys2Proof.Machine

/-- SkipIfEqualImmediate (R181). -/
def execSkipIfEqualImmediate (ra : RegIdx) (kk : Byte) (s : State) : Host.Outcome State Fault Refusal :=
  .next (s.skipIf (s.readReg ra == kk))

/-- SkipIfNotEqualImmediate (R183). -/
def execSkipIfNotEqualImmediate (ra : RegIdx) (kk : Byte) (s : State) : Host.Outcome State Fault Refusal :=
  .next (s.skipIf (s.readReg ra != kk))

/-- SkipIfRegistersEqual (R185); imm4 is ignored (R88). -/
def execSkipIfRegistersEqual (ra rb : RegIdx) (_z : Nibble) (s : State) : Host.Outcome State Fault Refusal :=
  .next (s.skipIf (s.readReg ra == s.readReg rb))

/-- SkipIfRegistersNotEqual (R187); imm4 is ignored (R88). -/
def execSkipIfRegistersNotEqual (ra rb : RegIdx) (_z : Nibble) (s : State) : Host.Outcome State Fault Refusal :=
  .next (s.skipIf (s.readReg ra != s.readReg rb))

/-- SkipIfKeyPressed (R189): the key is the low nibble of x[rA]. -/
def execSkipIfKeyPressed (ra : RegIdx) (s : State) : Host.Outcome State Fault Refusal :=
  .next (s.skipIf (s.keyPressed (lowNibble (s.readReg ra))))

/-- SkipIfKeyNotPressed (R191): the key is the low nibble of x[rA]. -/
def execSkipIfKeyNotPressed (ra : RegIdx) (s : State) : Host.Outcome State Fault Refusal :=
  .next (s.skipIf (!s.keyPressed (lowNibble (s.readReg ra))))

end Sys2Proof.Machine
end

