-- ==== Sys2Proof/Machine/TimersKeys.lean ====
section
/-! DEFINITION. Timers and blocking key input (48_timers_keys.md). Every meaning runs after the
fetch and the advance of 40_step_cycle.md R120: on entry the pc is a0 + 2. -/

namespace Sys2Proof.Machine

/-- ReadDelay (R300): x[rA] <- DT. -/
def execReadDelay (ra : RegIdx) (s : State) : Host.Outcome State Fault Refusal :=
  .next (s.writeReg ra s.DT)

/-- WriteDelay (R302): DT <- x[rA]. -/
def execWriteDelay (ra : RegIdx) (s : State) : Host.Outcome State Fault Refusal :=
  .next (s.setDT (s.readReg ra))

/-- WriteSound (R304): ST <- x[rA]. -/
def execWriteSound (ra : RegIdx) (s : State) : Host.Outcome State Fault Refusal :=
  .next (s.setST (s.readReg ra))

/-- The first pressed key of `ks` (R306). -/
def State.firstPressed (s : State) (ks : List Nat) : Option Nat :=
  ks.find? fun k => s.keyPressed (BitVec.ofNat 4 k)

/-- GetKey (R306): the lowest pressed key to x[rA]; with no key pressed the pc goes back to the instruction, which the
next step fetches again. -/
def execGetKey (ra : RegIdx) (s : State) : Host.Outcome State Fault Refusal :=
  match s.firstPressed (List.range 16) with
  | some k => .next (s.writeReg ra (BitVec.ofNat 8 k))
  | none => .next s.rewindPc

end Sys2Proof.Machine
end

