-- ==== Sys2Proof/Machine/ZeroFamily.lean ====
section
/-! DEFINITION. Opcode 0x0 family (41_zero_family.md) and the three other Unrecognized residuals. Every meaning runs after the
fetch and the advance of 40_step_cycle.md R120: on entry the pc is a0 + 2. -/

namespace Sys2Proof.Machine

/-- ClearScreen (R140): every framebuffer cell <- 0; the bits z are ignored (R87). -/
def execClearScreen (_z : Nibble) (s : State) : Host.Outcome State Fault Refusal :=
  .next s.clearDisplay

/-- Return (R142): pc <- the newest stack entry, used as it is; StackUnderflow on an empty stack. The bits z are ignored
(R87) and appear only in the fault's raw bytes (R321). -/
def execReturn (z : Nibble) (s : State) : Host.Outcome State Fault Refusal :=
  match s.pop with
  | none => s.raise (.ret z) .stackUnderflow none
  | some (target, t) => .next (t.setPc target)

/-- NoOp (R144): no effect; the bits z are ignored (R87). -/
def execNoOp (_z : Nibble) (s : State) : Host.Outcome State Fault Refusal :=
  .next s

/-- Unrecognized, op = 0x0 (R146): always UnrecognizedInstruction. -/
def execUnrecognized0 (raw : Addr12) (s : State) : Host.Outcome State Fault Refusal :=
  s.raise (.unrecognized0 raw) .unrecognizedInstruction none

/-- Unrecognized, op = 0x8 (R230): always UnrecognizedInstruction. -/
def execUnrecognized8 (raw : Addr12) (s : State) : Host.Outcome State Fault Refusal :=
  s.raise (.unrecognized8 raw) .unrecognizedInstruction none

/-- Unrecognized, op = 0xE (R193): always UnrecognizedInstruction. -/
def execUnrecognizedE (raw : Addr12) (s : State) : Host.Outcome State Fault Refusal :=
  s.raise (.unrecognizedE raw) .unrecognizedInstruction none

/-- Unrecognized, op = 0xF (R310): always UnrecognizedInstruction. -/
def execUnrecognizedF (raw : Addr12) (s : State) : Host.Outcome State Fault Refusal :=
  s.raise (.unrecognizedF raw) .unrecognizedInstruction none

end Sys2Proof.Machine
end

