-- ==== Sys2Proof/Machine/Dispatch.lean ====
section
/-! DEFINITION. Execute: one arm per constructor of `Instr`, each one call of that instruction's meaning (40_step_cycle.md
R124). -/

namespace Sys2Proof.Machine

def exec (i : Instr) (s : State) : Host.Outcome State Fault Refusal :=
  match i with
  | .clearScreen z => Sys2Proof.Machine.execClearScreen z s
  | .ret z => Sys2Proof.Machine.execReturn z s
  | .noOp z => Sys2Proof.Machine.execNoOp z s
  | .jump nnn => Sys2Proof.Machine.execJump nnn s
  | .call nnn => Sys2Proof.Machine.execCall nnn s
  | .skipIfEqualImmediate ra kk => Sys2Proof.Machine.execSkipIfEqualImmediate ra kk s
  | .skipIfNotEqualImmediate ra kk => Sys2Proof.Machine.execSkipIfNotEqualImmediate ra kk s
  | .skipIfRegistersEqual ra rb z => Sys2Proof.Machine.execSkipIfRegistersEqual ra rb z s
  | .setImmediate ra kk => Sys2Proof.Machine.execSetImmediate ra kk s
  | .addImmediate ra kk => Sys2Proof.Machine.execAddImmediate ra kk s
  | .set ra rb => Sys2Proof.Machine.execSet ra rb s
  | .or ra rb => Sys2Proof.Machine.execOr ra rb s
  | .and ra rb => Sys2Proof.Machine.execAnd ra rb s
  | .xor ra rb => Sys2Proof.Machine.execXor ra rb s
  | .add ra rb => Sys2Proof.Machine.execAdd ra rb s
  | .subtractAB ra rb => Sys2Proof.Machine.execSubtractAB ra rb s
  | .subtractBA ra rb => Sys2Proof.Machine.execSubtractBA ra rb s
  | .shiftRight ra rb => Sys2Proof.Machine.execShiftRight ra rb s
  | .shiftLeft ra rb => Sys2Proof.Machine.execShiftLeft ra rb s
  | .skipIfRegistersNotEqual ra rb z => Sys2Proof.Machine.execSkipIfRegistersNotEqual ra rb z s
  | .setIndex nnn => Sys2Proof.Machine.execSetIndex nnn s
  | .jumpWithOffset nnn => Sys2Proof.Machine.execJumpWithOffset nnn s
  | .random ra kk => Sys2Proof.Machine.execRandom ra kk s
  | .draw ra rb n => Sys2Proof.Machine.execDraw ra rb n s
  | .skipIfKeyPressed ra => Sys2Proof.Machine.execSkipIfKeyPressed ra s
  | .skipIfKeyNotPressed ra => Sys2Proof.Machine.execSkipIfKeyNotPressed ra s
  | .readDelay ra => Sys2Proof.Machine.execReadDelay ra s
  | .getKey ra => Sys2Proof.Machine.execGetKey ra s
  | .writeDelay ra => Sys2Proof.Machine.execWriteDelay ra s
  | .writeSound ra => Sys2Proof.Machine.execWriteSound ra s
  | .addIndex ra => Sys2Proof.Machine.execAddIndex ra s
  | .setIndexGlyph ra => Sys2Proof.Machine.execSetIndexGlyph ra s
  | .storeBCD ra => Sys2Proof.Machine.execStoreBCD ra s
  | .storeRegisters ra => Sys2Proof.Machine.execStoreRegisters ra s
  | .loadRegisters ra => Sys2Proof.Machine.execLoadRegisters ra s
  | .unrecognized0 raw => Sys2Proof.Machine.execUnrecognized0 raw s
  | .unrecognized8 raw => Sys2Proof.Machine.execUnrecognized8 raw s
  | .unrecognizedE raw => Sys2Proof.Machine.execUnrecognizedE raw s
  | .unrecognizedF raw => Sys2Proof.Machine.execUnrecognizedF raw s

end Sys2Proof.Machine
end

