-- ==== Sys2Proof/Machine/Step.lean ====
section
/-! DEFINITION. The step (40_step_cycle.md R120) and the host's placement of a word where the step fetches. -/

namespace Sys2Proof.Machine

/-- One fetch-decode-execute cycle (R120). A machine whose fault status is set has no step (R127); an out-of-bounds pc
raises FetchOutOfBounds before anything is read (R121); otherwise the word at the pc is fetched, the pc advanced by 2
(R122), and the decoded operation executed. -/
def step (s : State) : Host.Outcome State Fault Refusal :=
  match s.fault with
  | some r => .fault (.halted r)
  | none =>
    match s.fetch with
    | none => .next s.takeFetchFault
    | some w => exec (decode w) s.advancePc

/-- `s` with the instruction whose bits are `w` stored at the pc, where `step` fetches (assumption 5). Every instruction
is 16 bits (R80), so `nbits` adds nothing: bits above it are zero in `w`. -/
def State.withFetchWord (s : State) (_nbits w : Nat) : State := s.placeWord (BitVec.ofNat 16 w)

end Sys2Proof.Machine
end

