-- ==== Sys2Proof/Machine/Assembly.lean ====
section
/-! DEFINITION. The assembler syntax the spec writes instructions in (30_encoding.md R96, R98; 92_eei_decisions.md D22) and
its conventional aliases (R97): how an instruction is written, and the word a written line assembles to. No meaning of
an instruction depends on it. -/

namespace Sys2Proof.Machine

/-- The names that start a line: the mnemonics of R86, `.word`, and the conventional aliases of R97. -/
inductive Mnemonic where
  | clearScreen | ret | noOp | jump | call | skipIfEqualImmediate | skipIfNotEqualImmediate | skipIfRegistersEqual
  | setImmediate | addImmediate | set | or | and | xor | add | subtractAB | subtractBA | shiftRight | shiftLeft
  | skipIfRegistersNotEqual | setIndex | jumpWithOffset | random | draw | skipIfKeyPressed | skipIfKeyNotPressed
  | readDelay | getKey | writeDelay | writeSound | addIndex | setIndexGlyph | storeBCD | storeRegisters
  | loadRegisters | word
  | aCLS | aRET | aJP | aCALL | aSE | aSNE | aLD | aADD | aOR | aAND | aXOR | aSUB | aSUBN | aSHR | aSHL | aRND
  | aDRW | aSKP | aSKNP
  deriving DecidableEq, Repr

/-- How a mnemonic is spelled (R86, R96, R97). -/
def Mnemonic.text : Mnemonic → String
  | .clearScreen => "ClearScreen"
  | .ret => "Return"
  | .noOp => "NoOp"
  | .jump => "Jump"
  | .call => "Call"
  | .skipIfEqualImmediate => "SkipIfEqualImmediate"
  | .skipIfNotEqualImmediate => "SkipIfNotEqualImmediate"
  | .skipIfRegistersEqual => "SkipIfRegistersEqual"
  | .setImmediate => "SetImmediate"
  | .addImmediate => "AddImmediate"
  | .set => "Set"
  | .or => "Or"
  | .and => "And"
  | .xor => "Xor"
  | .add => "Add"
  | .subtractAB => "SubtractAB"
  | .subtractBA => "SubtractBA"
  | .shiftRight => "ShiftRight"
  | .shiftLeft => "ShiftLeft"
  | .skipIfRegistersNotEqual => "SkipIfRegistersNotEqual"
  | .setIndex => "SetIndex"
  | .jumpWithOffset => "JumpWithOffset"
  | .random => "Random"
  | .draw => "Draw"
  | .skipIfKeyPressed => "SkipIfKeyPressed"
  | .skipIfKeyNotPressed => "SkipIfKeyNotPressed"
  | .readDelay => "ReadDelay"
  | .getKey => "GetKey"
  | .writeDelay => "WriteDelay"
  | .writeSound => "WriteSound"
  | .addIndex => "AddIndex"
  | .setIndexGlyph => "SetIndexGlyph"
  | .storeBCD => "StoreBCD"
  | .storeRegisters => "StoreRegisters"
  | .loadRegisters => "LoadRegisters"
  | .word => ".word"
  | .aCLS => "CLS"
  | .aRET => "RET"
  | .aJP => "JP"
  | .aCALL => "CALL"
  | .aSE => "SE"
  | .aSNE => "SNE"
  | .aLD => "LD"
  | .aADD => "ADD"
  | .aOR => "OR"
  | .aAND => "AND"
  | .aXOR => "XOR"
  | .aSUB => "SUB"
  | .aSUBN => "SUBN"
  | .aSHR => "SHR"
  | .aSHL => "SHL"
  | .aRND => "RND"
  | .aDRW => "DRW"
  | .aSKP => "SKP"
  | .aSKNP => "SKNP"

/-- The operands that only the aliases use (R97). -/
inductive AsmName where
  | index | memory | delay | sound | key | glyph | bcd
  deriving DecidableEq, Repr

/-- How such an operand is spelled (R97). -/
def AsmName.text : AsmName → String
  | .index => "I"
  | .memory => "[I]"
  | .delay => "DT"
  | .sound => "ST"
  | .key => "K"
  | .glyph => "F"
  | .bcd => "B"

/-- An operand as it is written. -/
inductive AsmOperand where
  /-- `V0` to `VF`. -/
  | reg (r : RegIdx)
  /-- A number in hexadecimal, written in at least `digits` digits. -/
  | imm (digits value : Nat)
  /-- A name that only the aliases use. -/
  | named (name : AsmName)
  deriving DecidableEq, Repr

/-- A line: the mnemonic, then the operands. -/
structure AsmLine where
  mnemonic : Mnemonic
  operands : List AsmOperand
  deriving DecidableEq, Repr

/-- A 4-bit immediate; it must fit its field (R96). -/
def nibbleField (v : Nat) : Option Nibble := if v < 16 then some (BitVec.ofNat 4 v) else none

/-- An 8-bit immediate; it must fit its field (R96). -/
def byteField (v : Nat) : Option Byte := if v < 256 then some (BitVec.ofNat 8 v) else none

/-- A 12-bit address; it must fit its field (R96). -/
def addrField (v : Nat) : Option Addr12 := if v < 4096 then some (BitVec.ofNat 12 v) else none

/-- The 16-bit word of `.word hhhh` (R96). -/
def wordField (v : Nat) : Option Word := if v < 65536 then some (BitVec.ofNat 16 v) else none

/-- The instruction that a line in the spec's own syntax is: bits the operation ignores are 0, and so is a shift's
registerB when no second operand is written (R96). `.word` is a data directive: the word, whatever it decodes to (R98). -/
def parseLine (l : AsmLine) : Option Instr :=
  match l.mnemonic, l.operands with
  | .clearScreen, [] => some (.clearScreen 0)
  | .ret, [] => some (.ret 0)
  | .noOp, [] => some (.noOp 0)
  | .jump, [.imm _ n] => (addrField n).map .jump
  | .call, [.imm _ n] => (addrField n).map .call
  | .skipIfEqualImmediate, [.reg x, .imm _ k] => (byteField k).map (.skipIfEqualImmediate x)
  | .skipIfNotEqualImmediate, [.reg x, .imm _ k] => (byteField k).map (.skipIfNotEqualImmediate x)
  | .skipIfRegistersEqual, [.reg x, .reg y] => some (.skipIfRegistersEqual x y 0)
  | .setImmediate, [.reg x, .imm _ k] => (byteField k).map (.setImmediate x)
  | .addImmediate, [.reg x, .imm _ k] => (byteField k).map (.addImmediate x)
  | .set, [.reg x, .reg y] => some (.set x y)
  | .or, [.reg x, .reg y] => some (.or x y)
  | .and, [.reg x, .reg y] => some (.and x y)
  | .xor, [.reg x, .reg y] => some (.xor x y)
  | .add, [.reg x, .reg y] => some (.add x y)
  | .subtractAB, [.reg x, .reg y] => some (.subtractAB x y)
  | .subtractBA, [.reg x, .reg y] => some (.subtractBA x y)
  | .shiftRight, [.reg x] => some (.shiftRight x 0)
  | .shiftRight, [.reg x, .reg y] => some (.shiftRight x y)
  | .shiftLeft, [.reg x] => some (.shiftLeft x 0)
  | .shiftLeft, [.reg x, .reg y] => some (.shiftLeft x y)
  | .skipIfRegistersNotEqual, [.reg x, .reg y] => some (.skipIfRegistersNotEqual x y 0)
  | .setIndex, [.imm _ n] => (addrField n).map .setIndex
  | .jumpWithOffset, [.imm _ n] => (addrField n).map .jumpWithOffset
  | .random, [.reg x, .imm _ k] => (byteField k).map (.random x)
  | .draw, [.reg x, .reg y, .imm _ n] => (nibbleField n).map (.draw x y)
  | .skipIfKeyPressed, [.reg x] => some (.skipIfKeyPressed x)
  | .skipIfKeyNotPressed, [.reg x] => some (.skipIfKeyNotPressed x)
  | .readDelay, [.reg x] => some (.readDelay x)
  | .getKey, [.reg x] => some (.getKey x)
  | .writeDelay, [.reg x] => some (.writeDelay x)
  | .writeSound, [.reg x] => some (.writeSound x)
  | .addIndex, [.reg x] => some (.addIndex x)
  | .setIndexGlyph, [.reg x] => some (.setIndexGlyph x)
  | .storeBCD, [.reg x] => some (.storeBCD x)
  | .storeRegisters, [.reg x] => some (.storeRegisters x)
  | .loadRegisters, [.reg x] => some (.loadRegisters x)
  | .word, [.imm _ w] => (wordField w).map decode
  | _, _ => none

/-- The instruction that a line in the conventional aliases is (R97). -/
def parseAlias (l : AsmLine) : Option Instr :=
  match l.mnemonic, l.operands with
  | .aCLS, [] => some (.clearScreen 0)
  | .aRET, [] => some (.ret 0)
  | .aJP, [.imm _ n] => (addrField n).map .jump
  | .aJP, [.reg 0x0#4, .imm _ n] => (addrField n).map .jumpWithOffset
  | .aCALL, [.imm _ n] => (addrField n).map .call
  | .aSE, [.reg x, .imm _ k] => (byteField k).map (.skipIfEqualImmediate x)
  | .aSE, [.reg x, .reg y] => some (.skipIfRegistersEqual x y 0)
  | .aSNE, [.reg x, .imm _ k] => (byteField k).map (.skipIfNotEqualImmediate x)
  | .aSNE, [.reg x, .reg y] => some (.skipIfRegistersNotEqual x y 0)
  | .aLD, [.reg x, .imm _ k] => (byteField k).map (.setImmediate x)
  | .aLD, [.reg x, .reg y] => some (.set x y)
  | .aLD, [.named .index, .imm _ n] => (addrField n).map .setIndex
  | .aLD, [.reg x, .named .delay] => some (.readDelay x)
  | .aLD, [.reg x, .named .key] => some (.getKey x)
  | .aLD, [.named .delay, .reg x] => some (.writeDelay x)
  | .aLD, [.named .sound, .reg x] => some (.writeSound x)
  | .aLD, [.named .glyph, .reg x] => some (.setIndexGlyph x)
  | .aLD, [.named .bcd, .reg x] => some (.storeBCD x)
  | .aLD, [.named .memory, .reg x] => some (.storeRegisters x)
  | .aLD, [.reg x, .named .memory] => some (.loadRegisters x)
  | .aADD, [.reg x, .imm _ k] => (byteField k).map (.addImmediate x)
  | .aADD, [.reg x, .reg y] => some (.add x y)
  | .aADD, [.named .index, .reg x] => some (.addIndex x)
  | .aOR, [.reg x, .reg y] => some (.or x y)
  | .aAND, [.reg x, .reg y] => some (.and x y)
  | .aXOR, [.reg x, .reg y] => some (.xor x y)
  | .aSUB, [.reg x, .reg y] => some (.subtractAB x y)
  | .aSUBN, [.reg x, .reg y] => some (.subtractBA x y)
  | .aSHR, [.reg x] => some (.shiftRight x 0)
  | .aSHR, [.reg x, .reg y] => some (.shiftRight x y)
  | .aSHL, [.reg x] => some (.shiftLeft x 0)
  | .aSHL, [.reg x, .reg y] => some (.shiftLeft x y)
  | .aRND, [.reg x, .imm _ k] => (byteField k).map (.random x)
  | .aDRW, [.reg x, .reg y, .imm _ n] => (nibbleField n).map (.draw x y)
  | .aSKP, [.reg x] => some (.skipIfKeyPressed x)
  | .aSKNP, [.reg x] => some (.skipIfKeyNotPressed x)
  | _, _ => none

/-- The word a line assembles to, in the spec's syntax or by an alias; nothing for any other line (R96, R97). -/
def assemble (l : AsmLine) : Option Word := ((parseLine l).or (parseAlias l)).map encode

/-- The instruction as the spec's syntax writes it; the word of an Unrecognized term, as data (R96). -/
def written : Instr → AsmLine
  | .clearScreen _ => ⟨.clearScreen, []⟩
  | .ret _ => ⟨.ret, []⟩
  | .noOp _ => ⟨.noOp, []⟩
  | .jump nnn => ⟨.jump, [.imm 3 nnn.toNat]⟩
  | .call nnn => ⟨.call, [.imm 3 nnn.toNat]⟩
  | .skipIfEqualImmediate x kk => ⟨.skipIfEqualImmediate, [.reg x, .imm 2 kk.toNat]⟩
  | .skipIfNotEqualImmediate x kk => ⟨.skipIfNotEqualImmediate, [.reg x, .imm 2 kk.toNat]⟩
  | .skipIfRegistersEqual x y _ => ⟨.skipIfRegistersEqual, [.reg x, .reg y]⟩
  | .setImmediate x kk => ⟨.setImmediate, [.reg x, .imm 2 kk.toNat]⟩
  | .addImmediate x kk => ⟨.addImmediate, [.reg x, .imm 2 kk.toNat]⟩
  | .set x y => ⟨.set, [.reg x, .reg y]⟩
  | .or x y => ⟨.or, [.reg x, .reg y]⟩
  | .and x y => ⟨.and, [.reg x, .reg y]⟩
  | .xor x y => ⟨.xor, [.reg x, .reg y]⟩
  | .add x y => ⟨.add, [.reg x, .reg y]⟩
  | .subtractAB x y => ⟨.subtractAB, [.reg x, .reg y]⟩
  | .subtractBA x y => ⟨.subtractBA, [.reg x, .reg y]⟩
  | .shiftRight x y => ⟨.shiftRight, [.reg x, .reg y]⟩
  | .shiftLeft x y => ⟨.shiftLeft, [.reg x, .reg y]⟩
  | .skipIfRegistersNotEqual x y _ => ⟨.skipIfRegistersNotEqual, [.reg x, .reg y]⟩
  | .setIndex nnn => ⟨.setIndex, [.imm 3 nnn.toNat]⟩
  | .jumpWithOffset nnn => ⟨.jumpWithOffset, [.imm 3 nnn.toNat]⟩
  | .random x kk => ⟨.random, [.reg x, .imm 2 kk.toNat]⟩
  | .draw x y n => ⟨.draw, [.reg x, .reg y, .imm 1 n.toNat]⟩
  | .skipIfKeyPressed x => ⟨.skipIfKeyPressed, [.reg x]⟩
  | .skipIfKeyNotPressed x => ⟨.skipIfKeyNotPressed, [.reg x]⟩
  | .readDelay x => ⟨.readDelay, [.reg x]⟩
  | .getKey x => ⟨.getKey, [.reg x]⟩
  | .writeDelay x => ⟨.writeDelay, [.reg x]⟩
  | .writeSound x => ⟨.writeSound, [.reg x]⟩
  | .addIndex x => ⟨.addIndex, [.reg x]⟩
  | .setIndexGlyph x => ⟨.setIndexGlyph, [.reg x]⟩
  | .storeBCD x => ⟨.storeBCD, [.reg x]⟩
  | .storeRegisters x => ⟨.storeRegisters, [.reg x]⟩
  | .loadRegisters x => ⟨.loadRegisters, [.reg x]⟩
  | .unrecognized0 raw => ⟨.word, [.imm 4 (encode (.unrecognized0 raw)).toNat]⟩
  | .unrecognized8 raw => ⟨.word, [.imm 4 (encode (.unrecognized8 raw)).toNat]⟩
  | .unrecognizedE raw => ⟨.word, [.imm 4 (encode (.unrecognizedE raw)).toNat]⟩
  | .unrecognizedF raw => ⟨.word, [.imm 4 (encode (.unrecognizedF raw)).toNat]⟩

/-- The instruction with the bits that the syntax does not write at 0; a shift's registerB is written, so it stays (R96). -/
def canonical : Instr → Instr
  | .clearScreen _ => .clearScreen 0
  | .ret _ => .ret 0
  | .noOp _ => .noOp 0
  | .skipIfRegistersEqual x y _ => .skipIfRegistersEqual x y 0
  | .skipIfRegistersNotEqual x y _ => .skipIfRegistersNotEqual x y 0
  | i => i

/-- The text of one hexadecimal digit. -/
def hexDigit (d : Nat) : Char := ("0123456789ABCDEF".toList).getD d '0'

/-- A number in hexadecimal, at least `digits` digits long. -/
def hexText (digits v : Nat) : String :=
  let ds := (Nat.digits 16 v).map hexDigit
  "0x" ++ String.ofList (List.replicate (digits - ds.length) '0' ++ ds.reverse)

/-- The text of an operand (R96). -/
def AsmOperand.text : AsmOperand → String
  | .reg r => "V" ++ String.ofList [hexDigit r.toNat]
  | .imm digits v => hexText digits v
  | .named name => name.text

/-- The text of a line: the mnemonic, then the operands separated by commas (R96). -/
def AsmLine.text (l : AsmLine) : String :=
  match l.operands with
  | [] => l.mnemonic.text
  | ops => l.mnemonic.text ++ " " ++ String.intercalate ", " (ops.map AsmOperand.text)

end Sys2Proof.Machine
end

