-- ==== Sys2Proof/Machine/HostInterface.lean ====
section
/-! DEFINITION. The host operations of 60_exceptions.md R340 other than `new()` (State.reset, State.resetWith) and
`step()`: loading a program, decrementing the timers, writing a key, and the reads. They take place between steps (R346)
and are no part of `step`. -/

namespace Sys2Proof.Machine

/-- What `load(bytes)` answers (R362, R363): the loaded machine, or a rejection that reports a fault and changes no
state. -/
inductive LoadResult where
  | accepted (s : State)
  | rejected (kind : FaultKind)
  deriving DecidableEq, Repr

/-- Copy `bytes` to memory from address `a` up (R362). -/
def State.copyIn (s : State) (a : Nat) : List Byte → State
  | [] => s
  | b :: bs => (s.writeByte a b).copyIn (a + 1) bs

/-- `load(bytes)` (R362, R363): at most 3584 bytes go to 0x200 and up, and the pc to 0x200. -/
def State.load (s : State) (bytes : List Byte) : LoadResult :=
  if bytes.length > 3584 then .rejected .loadTooLarge
  else .accepted ((s.copyIn 0x200 bytes).setPc 0x0200#16)

/-- A timer's decrement: saturates at 0 (R29, R335). -/
def decremented (t : Byte) : Byte := if t = 0x00#8 then t else t - 1#8

/-- `decrement_delay()` (R335). -/
def State.decrementDelay (s : State) : State := s.setDT (decremented s.DT)

/-- `decrement_sound()` (R335). -/
def State.decrementSound (s : State) : State := s.setST (decremented s.ST)

/-- `set_key(k, v)`: pressed when v is not 0, released when it is (R341). -/
def State.setKey (s : State) (k : BitVec 4) (v : Byte) : State := s.writeKey k (v != 0x00#8)

/-- `read_display()`: the 2048 cells, row-major (R333, R340). -/
def State.readDisplay (s : State) : List Bool := s.fb.toList

/-- `read_timers()`: DT and ST (R342). -/
def State.readTimers (s : State) : Byte × Byte := (s.DT, s.ST)

/-- `read_fault()`: the fault record, or none (R343). -/
def State.readFault (s : State) : Option FaultRecord := s.fault

/-- The writing operations a host may make between steps (R340, R346). `load` is not one of them: it is called exactly
once, before the first step (R364, R365), and neither is any write of registers, memory or pc (R345). -/
inductive HostMove where
  | decrementDelay
  | decrementSound
  | setKey (k : BitVec 4) (v : Byte)
  deriving DecidableEq, Repr

/-- The state after a host move. Moves go on after a fault and do not clear it (R327). -/
def State.hostMove (s : State) : HostMove → State
  | .decrementDelay => s.decrementDelay
  | .decrementSound => s.decrementSound
  | .setKey k v => s.setKey k v

/-- The code of a fault (R320). -/
def FaultKind.code : FaultKind → Nat
  | .unrecognizedInstruction => 1
  | .fetchOutOfBounds => 2
  | .memoryOutOfBounds => 3
  | .stackOverflow => 4
  | .stackUnderflow => 5
  | .loadTooLarge => 6

end Sys2Proof.Machine
end

