-- ==== Sys2Proof/Safety.lean ====
section
/-! DEFINITION. What claims are stated in: the launch state and the runs from it, how a run ends, the invariant of the
machine, and what a step leaves unchanged. -/

namespace Sys2Proof.Machine

/-- `s` is the launch state of the program `bytes` on a machine with parameters `p`: `new()`, then one accepted `load`
(R40, R364). -/
def Launch (p : Params) (bytes : List Byte) (s : State) : Prop := (State.resetWith p).load bytes = .accepted s

/-- The states of the runs of a program: any interleaving of steps and host moves, in any number (R346, R366). -/
inductive Reachable (p : Params) (bytes : List Byte) : State → Prop where
  | launch (s : State) : Launch p bytes s → Reachable p bytes s
  | step (s t : State) : Reachable p bytes s → Machine.step s = .next t → Reachable p bytes t
  | host (s : State) (m : HostMove) : Reachable p bytes s → Reachable p bytes (s.hostMove m)

/-- A run ends well at the stop address a claim names: the pc is there and no fault is set (R368). -/
def EndsWell (stop : Word) (s : State) : Prop := s.pc = stop ∧ s.fault = none

/-- A run has ended badly: a step raised a fault (R327, R367). -/
def EndsBadly (s : State) : Prop := s.fault ≠ none

/-- Memory is in its canonical form, with respect to what `new()` put there. -/
abbrev State.memWf (s : State) : Prop := Memory.wf (resetByte s.params) s.mem

/-- The shape of a fault record (R320, R321): raw bytes for every fault but FetchOutOfBounds; a data address, above
0xFFF, for MemoryOutOfBounds and no other; LoadTooLarge never; a FetchOutOfBounds only above 0x0FFE. -/
def FaultRecord.wf (r : FaultRecord) : Prop :=
  (r.bytes = none ↔ r.kind = .fetchOutOfBounds) ∧
  (match r.dataAddr with
    | some ea => r.kind = .memoryOutOfBounds ∧ 0xFFF < ea
    | none => r.kind ≠ .memoryOutOfBounds) ∧
  r.kind ≠ .loadTooLarge ∧
  (r.kind = .fetchOutOfBounds ↔ 0x0FFE < r.addr.toNat)

/-- The invariant: memory is canonical; the pc never exceeds the largest value a step writes, 0x10FE (R26); every stack
entry is a post-fetch pc, at most 0x1000 (R27, R162); a set fault record has its shape and names the pc, at which the
faulted machine stands (R321, R326). -/
def State.Inv (s : State) : Prop :=
  s.memWf ∧ s.pc.toNat ≤ 0x10FE ∧ (∀ v ∈ s.stack.toList, v.toNat ≤ 0x1000) ∧
  (∀ r, s.fault = some r → r.wf ∧ r.addr = s.pc)

/-- The parts of the state, for saying what an instruction may change. -/
inductive Part where
  | regs | index | pc | stack | delay | sound | display | keys | memory | fault | params | draws
  deriving DecidableEq, Repr

/-- The part `p` is the same in `s` and `t`: every register, every stack entry and the stack pointer, every pixel, every
key, the byte at EVERY address, and so on. -/
def Part.same (s t : State) : Part → Prop
  | .regs => ∀ r, t.readReg r = s.readReg r
  | .index => t.I = s.I
  | .pc => t.pc = s.pc
  | .stack => t.sp = s.sp ∧ t.stack = s.stack
  | .delay => t.DT = s.DT
  | .sound => t.ST = s.ST
  | .display => ∀ j, t.pixel j = s.pixel j
  | .keys => ∀ k, t.keyPressed k = s.keyPressed k
  | .memory => ∀ a, t.readByte a = s.readByte a
  | .fault => t.fault = s.fault
  | .params => t.params = s.params
  | .draws => t.draws = s.draws

/-- Every part but those listed is unchanged from `s` to `t`. -/
def UnchangedBut (ps : List Part) (s t : State) : Prop := ∀ p, p ∉ ps → p.same s t

/-- Every register but those in `rs` is unchanged from `s` to `t`. -/
def RegsUnchangedBut (rs : List RegIdx) (s t : State) : Prop := ∀ r, r ∉ rs → t.readReg r = s.readReg r

/-- The instruction at the pc: what the bytes there decode to (R120). -/
def State.currentInstr (s : State) : Instr := decode (s.wordAt s.pc.toNat)

/-- N, the last register LoadRegisters loads: registerA, or 6 under LOAD_COUNT_FIELD = B (R262). -/
def lastLoaded (f : LoadCountField) (ra : RegIdx) : Nat :=
  match f with
  | .a => ra.toNat
  | .b => 6

/-- The sprite bit that a Draw of n rows at (x[ra] mod 64, x[rb] mod 32) puts on column c of framebuffer row r: bit
7 - (c - cx) of the byte at I + (r - cy), where the sprite covers the cell, else 0 (R280, R281). -/
def State.spriteBit (s : State) (ra rb : RegIdx) (n : Nibble) (r c : Nat) : Bool :=
  let cx := (s.readReg ra).toNat % 64
  let cy := (s.readReg rb).toNat % 32
  decide (cy ≤ r ∧ r < cy + n.toNat ∧ cx ≤ c ∧ c < cx + 8) &&
    (s.readByte (s.I.toNat + (r - cy))).getLsbD (7 - (c - cx))

/-- Some cell of the screen is 1 and is turned to 0 by that Draw (R280). -/
def State.spriteCollides (s : State) (ra rb : RegIdx) (n : Nibble) : Prop :=
  ∃ r c, r < 32 ∧ c < 64 ∧ s.spriteBit ra rb n r c = true ∧ s.pixel (r * 64 + c) = true

/-- The fault that instruction `i` raises in state `s`, its kind and its data address: the table of R320 with the
conditions of R28, R55, R146 and R282. The data address is the first one out of bounds in the order of access. -/
def FaultCondition (i : Instr) (s : State) (kind : FaultKind) (dataAddr : Option Nat) : Prop :=
  match i with
  | .unrecognized0 _ | .unrecognized8 _ | .unrecognizedE _ | .unrecognizedF _ =>
    kind = .unrecognizedInstruction ∧ dataAddr = none
  | .call _ => kind = .stackOverflow ∧ dataAddr = none ∧ s.sp.val = 48
  | .ret _ => kind = .stackUnderflow ∧ dataAddr = none ∧ s.sp.val = 0
  | .storeBCD _ => kind = .memoryOutOfBounds ∧ dataAddr = some (max s.I.toNat 0x1000) ∧ 0xFFF < s.I.toNat + 2
  | .storeRegisters ra =>
    kind = .memoryOutOfBounds ∧ dataAddr = some (max s.I.toNat 0x1000) ∧ 0xFFF < s.I.toNat + ra.toNat
  | .loadRegisters ra =>
    kind = .memoryOutOfBounds ∧ dataAddr = some (max s.I.toNat 0x1000) ∧
      0xFFF < s.I.toNat + lastLoaded s.params.loadCountField ra
  | .draw _ rb n =>
    kind = .memoryOutOfBounds ∧ ∃ k, k < n.toNat ∧ (s.readReg rb).toNat % 32 + k < 32 ∧ 0xFFF < s.I.toNat + k ∧
      (∀ l, l < k → s.I.toNat + l ≤ 0xFFF) ∧ dataAddr = some (s.I.toNat + k)
  | .clearScreen _ | .noOp _ | .jump _ | .skipIfEqualImmediate _ _ | .skipIfNotEqualImmediate _ _
  | .skipIfRegistersEqual _ _ _ | .setImmediate _ _ | .addImmediate _ _ | .set _ _ | .or _ _ | .and _ _ | .xor _ _
  | .add _ _ | .subtractAB _ _ | .subtractBA _ _ | .shiftRight _ _ | .shiftLeft _ _ | .skipIfRegistersNotEqual _ _ _
  | .setIndex _ | .jumpWithOffset _ | .random _ _ | .skipIfKeyPressed _ | .skipIfKeyNotPressed _ | .readDelay _
  | .getKey _ | .writeDelay _ | .writeSound _ | .addIndex _ | .setIndexGlyph _ => False

/-- The registers an instruction writes: the table of R22, with N of R262 for LoadRegisters. -/
def WritesReg (f : LoadCountField) (i : Instr) (q : RegIdx) : Prop :=
  match i with
  | .setImmediate ra _ | .addImmediate ra _ | .random ra _ => q = ra
  | .set ra _ | .or ra _ | .and ra _ | .xor ra _ => q = ra
  | .add ra _ | .subtractAB ra _ | .subtractBA ra _ | .shiftRight ra _ | .shiftLeft ra _ => q = ra ∨ q = vf
  | .draw _ _ _ | .addIndex _ => q = vf
  | .readDelay ra | .getKey ra => q = ra
  | .loadRegisters ra => q.toNat ≤ lastLoaded f ra
  | .clearScreen _ | .ret _ | .noOp _ | .jump _ | .call _ | .skipIfEqualImmediate _ _ | .skipIfNotEqualImmediate _ _
  | .skipIfRegistersEqual _ _ _ | .skipIfRegistersNotEqual _ _ _ | .setIndex _ | .jumpWithOffset _
  | .skipIfKeyPressed _ | .skipIfKeyNotPressed _ | .writeDelay _ | .writeSound _ | .setIndexGlyph _ | .storeBCD _
  | .storeRegisters _ | .unrecognized0 _ | .unrecognized8 _ | .unrecognizedE _ | .unrecognizedF _ => False

/-- The bytes an instruction stores to: the "writes" column of R56. -/
def StoresTo (i : Instr) (s : State) (a : Nat) : Prop :=
  match i with
  | .storeBCD _ => s.I.toNat ≤ a ∧ a ≤ s.I.toNat + 2
  | .storeRegisters ra => s.I.toNat ≤ a ∧ a ≤ s.I.toNat + ra.toNat
  | .clearScreen _ | .ret _ | .noOp _ | .jump _ | .call _ | .skipIfEqualImmediate _ _ | .skipIfNotEqualImmediate _ _
  | .skipIfRegistersEqual _ _ _ | .setImmediate _ _ | .addImmediate _ _ | .set _ _ | .or _ _ | .and _ _ | .xor _ _
  | .add _ _ | .subtractAB _ _ | .subtractBA _ _ | .shiftRight _ _ | .shiftLeft _ _ | .skipIfRegistersNotEqual _ _ _
  | .setIndex _ | .jumpWithOffset _ | .random _ _ | .draw _ _ _ | .skipIfKeyPressed _ | .skipIfKeyNotPressed _
  | .readDelay _ | .getKey _ | .writeDelay _ | .writeSound _ | .addIndex _ | .setIndexGlyph _ | .loadRegisters _
  | .unrecognized0 _ | .unrecognized8 _ | .unrecognizedE _ | .unrecognizedF _ => False

/-- The pc after a step that raises no fault, from the address of the instruction it ran (R129): the target of a control
transfer, a0 + 4 for a taken skip, a0 for a GetKey that found no pressed key, a0 + 2 for everything else. -/
def State.pcAfter (s : State) (i : Instr) : Word :=
  match i with
  | .jump nnn | .call nnn => nnn.setWidth 16
  | .jumpWithOffset nnn => (s.readReg 0x0#4).setWidth 16 + nnn.setWidth 16
  | .ret _ => s.stack.toList.getD (s.sp.val - 1) 0x0000#16
  | .skipIfEqualImmediate ra kk => if s.readReg ra = kk then s.pc + 4#16 else s.pc + 2#16
  | .skipIfNotEqualImmediate ra kk => if s.readReg ra ≠ kk then s.pc + 4#16 else s.pc + 2#16
  | .skipIfRegistersEqual ra rb _ => if s.readReg ra = s.readReg rb then s.pc + 4#16 else s.pc + 2#16
  | .skipIfRegistersNotEqual ra rb _ => if s.readReg ra ≠ s.readReg rb then s.pc + 4#16 else s.pc + 2#16
  | .skipIfKeyPressed ra =>
    if s.keyPressed ((s.readReg ra).setWidth 4) = true then s.pc + 4#16 else s.pc + 2#16
  | .skipIfKeyNotPressed ra =>
    if s.keyPressed ((s.readReg ra).setWidth 4) = false then s.pc + 4#16 else s.pc + 2#16
  | .getKey _ => if ∃ k, s.keyPressed k = true then s.pc + 2#16 else s.pc
  | .clearScreen _ | .noOp _ | .setImmediate _ _ | .addImmediate _ _ | .set _ _ | .or _ _ | .and _ _ | .xor _ _
  | .add _ _ | .subtractAB _ _ | .subtractBA _ _ | .shiftRight _ _ | .shiftLeft _ _ | .setIndex _ | .random _ _
  | .draw _ _ _ | .readDelay _ | .writeDelay _ | .writeSound _ | .addIndex _ | .setIndexGlyph _ | .storeBCD _
  | .storeRegisters _ | .loadRegisters _ | .unrecognized0 _ | .unrecognized8 _ | .unrecognizedE _
  | .unrecognizedF _ => s.pc + 2#16

end Sys2Proof.Machine
end

