-- ==== Sys2Proof/Certificates/Slice0/Obligations.lean ====
section
/-! DEFINITION. The statements for the provers. Those whose docstring names a decision D<n> rest, for that clause, on the
spec's own decision over its source (92_eei_decisions.md); those that name an assumption rest on the model's choice. -/

open Sys2Proof Sys2Proof.Machine

/-! Encoding (30_encoding.md) -/

/-- Decoding the word of a well-formed instruction gives that instruction back, with every operand and every ignored bit.
The map both follow is the spec's, with decisions D17 and D29 and the 0x8 selectors of assumption 17. -/
def Obligations.DecodeInvertsEncode : Prop :=
  ∀ i : Instr, i.wellFormed = true → decode (encode i) = i

/-- Every one of the 65536 words decodes to a well-formed instruction whose word it is: no bit is dropped, and no two
words are one instruction. The map is the spec's, with decisions D17 and D29 and the 0x8 selectors of assumption 17. -/
def Obligations.EncodeInvertsDecode : Prop :=
  ∀ w : Word, encode (decode w) = w ∧ (decode w).wellFormed = true

/-- The Unrecognized space is exactly that of the opcode map's residual rows. For the 0xE family this is decision D17, for
the 0x8 selectors it is what the spec took from general knowledge, and for the 0x0 family decision D29. -/
def Obligations.UnrecognizedSpaceIsExact : Prop :=
  ∀ w : Word, (decode w).isUnrecognized = true ↔
    (opcodeOf w = 0x0#4 ∧ byte1Of w ≠ 0x00#8 ∧ byte1Of w ≠ 0xE0#8 ∧ byte1Of w ≠ 0xEE#8) ∨
    (opcodeOf w = 0x8#4 ∧ 8 ≤ (imm4Of w).toNat ∧ imm4Of w ≠ 0xE#4) ∨
    (opcodeOf w = 0xE#4 ∧ byte1Of w ≠ 0x9E#8 ∧ byte1Of w ≠ 0xA1#8) ∨
    (opcodeOf w = 0xF#4 ∧ byte1Of w ≠ 0x07#8 ∧ byte1Of w ≠ 0x0A#8 ∧ byte1Of w ≠ 0x15#8 ∧ byte1Of w ≠ 0x18#8 ∧
      byte1Of w ≠ 0x1E#8 ∧ byte1Of w ≠ 0x29#8 ∧ byte1Of w ≠ 0x33#8 ∧ byte1Of w ≠ 0x55#8 ∧ byte1Of w ≠ 0x65#8)

/-- Fourteen words, of the opcodes 0, 1, 2, 3, 8, 9, D, E and F, decode as the opcode map has them; all but 0xD015 (a word
of L2-I) are decode vectors of 95_test_vectors.md L2-A. What 0x8F96 and 0x812F decode to rests on the 0x8 selectors that
the spec took from general knowledge (assumption 17, PRESUMED), 0x0AE0 and 0x9AB7 on decision D29 (assumption 27), and
0xE09F on decision D17 (assumption 22). -/
def Obligations.SampleWordsDecodeAsTheMapSays : Prop :=
  decode 0x0AE0#16 = .clearScreen 0xA ∧ decode 0x00EE#16 = .ret 0 ∧ decode 0x0123#16 = .unrecognized0 0x123 ∧
  decode 0x1FFF#16 = .jump 0xFFF ∧ decode 0x2000#16 = .call 0 ∧ decode 0x3F00#16 = .skipIfEqualImmediate 0xF 0 ∧
  decode 0x9AB7#16 = .skipIfRegistersNotEqual 0xA 0xB 0x7 ∧ decode 0x8F96#16 = .shiftRight 0xF 9 ∧
  decode 0x812F#16 = .unrecognized8 0x12F ∧ decode 0xD015#16 = .draw 0 1 5 ∧ decode 0xE0A1#16 = .skipIfKeyNotPressed 0 ∧
  decode 0xE09F#16 = .unrecognizedE 0x09F ∧ decode 0xF065#16 = .loadRegisters 0 ∧ decode 0xF090#16 = .unrecognizedF 0x090

/-- R82: the fields of an instruction, as functions of its bytes and as bit positions of its word. -/
def Obligations.FieldsOfTheInstructionWord : Prop :=
  (∀ b0 b1 : Byte,
    opcodeOf (wordOfBytes b0 b1) = b0.extractLsb' 4 4 ∧ registerAOf (wordOfBytes b0 b1) = b0.extractLsb' 0 4 ∧
    registerBOf (wordOfBytes b0 b1) = b1.extractLsb' 4 4 ∧ imm4Of (wordOfBytes b0 b1) = b1.extractLsb' 0 4 ∧
    byte1Of (wordOfBytes b0 b1) = b1 ∧
    addr12Of (wordOfBytes b0 b1) = ((b0.extractLsb' 0 4).setWidth 12 <<< 8) ||| b1.setWidth 12) ∧
  (∀ w : Word,
    (opcodeOf w).toNat = w.toNat / 4096 ∧ (registerAOf w).toNat = w.toNat / 256 % 16 ∧
    (registerBOf w).toNat = w.toNat / 16 % 16 ∧ (imm4Of w).toNat = w.toNat % 16 ∧
    (byte1Of w).toNat = w.toNat % 256 ∧ (addr12Of w).toNat = w.toNat % 4096)

/-- The bits an operation ignores change nothing it does (30_encoding.md section 4; which bits the 0x0, 0x5 and 0x9 rows
ignore is decision D29). Return's show only in the raw bytes of its fault, so its clause excludes the empty stack. -/
def Obligations.IgnoredBitsChangeNothing : Prop :=
  ∀ (s : State) (z z' : Nibble) (ra rb rb' : RegIdx),
    exec (.clearScreen z) s = exec (.clearScreen z') s ∧ exec (.noOp z) s = exec (.noOp z') s ∧
    exec (.skipIfRegistersEqual ra rb z) s = exec (.skipIfRegistersEqual ra rb z') s ∧
    exec (.skipIfRegistersNotEqual ra rb z) s = exec (.skipIfRegistersNotEqual ra rb z') s ∧
    exec (.shiftRight ra rb) s = exec (.shiftRight ra rb') s ∧ exec (.shiftLeft ra rb) s = exec (.shiftLeft ra rb') s ∧
    (s.sp.val ≠ 0 → exec (.ret z) s = exec (.ret z') s)

/-- Every instruction, written in the spec's assembler syntax, assembles to its word with the unwritten bits at 0, and an
Unrecognized word written as data to itself (30_encoding.md section 5, decision D22). -/
def Obligations.WrittenFormAssemblesToTheWord : Prop :=
  ∀ i : Instr, assemble (written i) = some (encode (canonical i))

/-! The step cycle (40_step_cycle.md) -/

/-- R122: with the pc in bounds and no fault set, a step fetches the big-endian word at the pc, advances the pc by 2 and
then executes the decoded operation. -/
def Obligations.StepExecutesTheDecodedInstruction : Prop :=
  ∀ s : State, s.fault = none → s.pc.toNat ≤ 0x0FFE →
    step s = exec (decode (wordOfBytes (s.readByte s.pc.toNat) (s.readByte (s.pc.toNat + 1)))) { s with pc := s.pc + 2#16 }

/-- Decisions D5, D8 and D28, assumption 1: a pc above 0x0FFE faults at the fetch, before anything is read; the record
holds no bytes and no data address, and nothing but the fault status changes. -/
def Obligations.FetchOutOfBoundsFaultsAtTheFetch : Prop :=
  ∀ s : State, s.fault = none → 0x0FFE < s.pc.toNat →
    step s = .next { s with fault := some { kind := .fetchOutOfBounds, addr := s.pc, bytes := none, dataAddr := none } }

/-- Decision D25 and assumption 1: a machine whose fault status is set has no step and stays so under every host move. -/
def Obligations.HaltedMachineHasNoStep : Prop :=
  ∀ (s : State) (r : FaultRecord), s.fault = some r →
    step s = .fault (.halted r) ∧ ∀ m : HostMove, (s.hostMove m).fault = some r ∧ step (s.hostMove m) = .fault (.halted r)

/-- A step of a machine whose fault status is clear always completes: it is never refused and it never stops (R128; that a
step that raises a fault also answers a next state is assumption 1). -/
def Obligations.EveryUnhaltedStepCompletes : Prop :=
  (∀ (i : Instr) (s : State), ∃ t, exec i s = .next t) ∧ (∀ s : State, s.fault = none → ∃ t, step s = .next t)

/-- The pc after a step that raises no fault: a0 + 2, a0 + 4, a0, or the target of the control transfer, each where the
spec gives it. The stack entry that Return goes to is decision D6, and that a target is not aligned or checked is D4 and
D5. -/
def Obligations.PcAfterAStep : Prop :=
  ∀ s t : State, step s = .next t → t.fault = none → t.pc = s.pcAfter s.currentInstr

/-- Decisions D8 and D28: a step that raises a fault changes the fault status and nothing else; the record names the pc
and the raw bytes there, or no bytes when the fetch was out of bounds. -/
def Obligations.FaultingStepChangesOnlyTheFaultStatus : Prop :=
  ∀ (s t : State) (r : FaultRecord), step s = .next t → t.fault = some r →
    t = { s with fault := some r } ∧ r.addr = s.pc ∧
    (s.pc.toNat ≤ 0x0FFE → r.bytes = some (s.readByte s.pc.toNat, s.readByte (s.pc.toNat + 1))) ∧
    (0x0FFE < s.pc.toNat → r.bytes = none)

/-- Which instruction raises which fault, when, with which data address: the fault table with the conditions of
decisions D6, D7, D14 and D27, raised as D8, D28 and assumption 1 have it. No instruction raises any other. The Draw
clause takes the start row from x[rB] as it was before VF is reset, also when rB = 0xF (decision D13, assumption 19); the
LoadRegisters clause takes N by the parameter LOAD_COUNT_FIELD (decision D10, assumptions 3 and 15). -/
def Obligations.InstructionsRaiseExactlyTheirFaults : Prop :=
  ∀ (i : Instr) (s t : State), s.fault = none → exec i s = .next t →
    ∀ (kind : FaultKind) (d : Option Nat),
      (∃ r, t.fault = some r ∧ r.kind = kind ∧ r.dataAddr = d) ↔ FaultCondition i s kind d

/-! The invariant -/

/-- The machine after `new()` meets the invariant, whatever its parameters (its pc of 0 is decision D2, its clear fault
status D8). -/
def Obligations.InvariantAtReset : Prop := State.reset.Inv ∧ ∀ p : Params, (State.resetWith p).Inv

/-- Every step keeps the invariant: canonical memory, the pc at most 0x10FE, every stack entry a post-fetch pc, and a
fault record of the right shape that names the pc (decisions D4, D5, D6, D8 and D28). -/
def Obligations.StepKeepsTheInvariant : Prop :=
  ∀ s t : State, s.Inv → step s = .next t → t.Inv

/-- Every host move (decisions D20 and D21) keeps the invariant, and so does an accepted load on any machine with no fault
set. R365 gives `load` a meaning on the state after `new()` only (decision D23): that it is defined on every other state,
such as one after a step or a load, is the model's choice (assumption 26). -/
def Obligations.HostKeepsTheInvariant : Prop :=
  (∀ (s : State) (m : HostMove), s.Inv → (s.hostMove m).Inv) ∧
  (∀ (s t : State) (bytes : List Byte), s.Inv → s.fault = none → s.load bytes = .accepted t → t.Inv)

/-- Every state of every run of every program, under every interleaving of steps and host moves, meets the invariant
(decisions D20, D21 and D23). -/
def Obligations.ReachableStatesMeetTheInvariant : Prop :=
  ∀ (p : Params) (bytes : List Byte) (s : State), Reachable p bytes s → s.Inv

/-! Whole-machine rules: who writes what -/

/-- A step writes no key and no parameter; it changes DT only as a WriteDelay and ST only as a WriteSound, so the
engine never decrements a timer (the decrement is the host's, decision D20). That the parameters stand in the state is
assumption 3. -/
def Obligations.StepNeverDecrementsTimersNorWritesKeys : Prop :=
  ∀ s t : State, step s = .next t →
    t.keys = s.keys ∧ t.params = s.params ∧
    (t.DT ≠ s.DT → ∃ ra, s.currentInstr = .writeDelay ra ∧ t.DT = s.readReg ra) ∧
    (t.ST ≠ s.ST → ∃ ra, s.currentInstr = .writeSound ra ∧ t.ST = s.readReg ra)

/-- Only ClearScreen and Draw change the framebuffer. -/
def Obligations.OnlyClearScreenAndDrawChangeTheDisplay : Prop :=
  ∀ s t : State, step s = .next t → (∃ j, t.pixel j ≠ s.pixel j) →
    (∃ z, s.currentInstr = .clearScreen z) ∨ (∃ ra rb n, s.currentInstr = .draw ra rb n)

/-- Only StoreBCD and StoreRegisters change memory, and only the bytes the access table gives them (decision D7). -/
def Obligations.OnlyTheStoresChangeMemory : Prop :=
  ∀ (s t : State) (a : Nat), s.memWf → step s = .next t → t.readByte a ≠ s.readByte a → StoresTo s.currentInstr s a

/-- A general register changes only when the table of register writers names it for the instruction; what it
leaves out is decision D16, and the last register LoadRegisters writes is D10 (assumptions 3 and 15). -/
def Obligations.OnlyTheNamedRegistersChange : Prop :=
  ∀ (s t : State) (q : RegIdx), step s = .next t → t.readReg q ≠ s.readReg q →
    WritesReg s.params.loadCountField s.currentInstr q

/-- Only Call and Return change the stack or its pointer, and only SetIndex, AddIndex and SetIndexGlyph change I
(decisions D6 and D11). -/
def Obligations.OnlyTheNamedInstructionsChangeStackAndIndex : Prop :=
  ∀ s t : State, step s = .next t →
    ((t.sp ≠ s.sp ∨ t.stack ≠ s.stack) → (∃ nnn, s.currentInstr = .call nnn) ∨ (∃ z, s.currentInstr = .ret z)) ∧
    (t.stack ≠ s.stack → ∃ nnn, s.currentInstr = .call nnn) ∧
    (t.I ≠ s.I → (∃ nnn, s.currentInstr = .setIndex nnn) ∨ (∃ ra, s.currentInstr = .addIndex ra) ∨
      (∃ ra, s.currentInstr = .setIndexGlyph ra))

/-- No instruction reads ST: two machines that differ only in it take the same step, but for ST. -/
def Obligations.SoundTimerIsNeverRead : Prop :=
  ∀ (s t : State) (v : Byte), step s = .next t →
    ∃ t', step { s with ST := v } = .next t' ∧ { t' with ST := t.ST } = t

/-- No rule reads a stack entry at or above sp: two machines that differ only in one take the same step, but for the
entries at or above the new sp (decision D6). -/
def Obligations.DeadStackEntriesAreNeverRead : Prop :=
  ∀ (s t : State) (j : Nat) (hj : j < 48) (v : Word), s.sp.val ≤ j → step s = .next t →
    ∃ t', step { s with stack := s.stack.set j v } = .next t' ∧ { t' with stack := t.stack } = t ∧
      ∀ k, k < t.sp.val → t'.stack.toList.getD k 0 = t.stack.toList.getD k 0

/-- Decision D24: a Jump at its own address is a stop: the step from there leaves the whole state unchanged. -/
def Obligations.SelfJumpLeavesTheStateUnchanged : Prop :=
  ∀ (s : State) (nnn : Addr12), s.fault = none → s.pc = nnn.setWidth 16 → s.pc.toNat ≤ 0x0FFE →
    s.currentInstr = .jump nnn → step s = .next s

/-- Fetch is coherent with stores: the word placed at the pc is the word the next step runs (assumption 5). -/
def Obligations.PlacedWordIsTheOneExecuted : Prop :=
  ∀ (s : State) (nbits w : Nat), s.memWf → s.fault = none → s.pc.toNat ≤ 0x0FFE → nbits ≤ 16 → w < 2 ^ 16 →
    decodeTableWord nbits w = some (decode (BitVec.ofNat 16 w)) ∧
    step (s.withFetchWord nbits w) =
      exec (decode (BitVec.ofNat 16 w)) { s.withFetchWord nbits w with pc := s.pc + 2#16 }

/-! Opcode 0x0 family -/

/-- ClearScreen zeroes the framebuffer and NoOp has no effect; nothing else changes (the ignored bits are D29). -/
def Obligations.ClearScreenAndNoOp : Prop :=
  ∀ (s : State) (z : Nibble),
    decode (wordXKK 0x0 z 0xE0) = .clearScreen z ∧ decode (wordXKK 0x0 z 0x00) = .noOp z ∧
    (∃ t, exec (.clearScreen z) s = .next t ∧ (∀ j, t.pixel j = false) ∧ UnchangedBut [.display] s t) ∧
    exec (.noOp z) s = .next s

/-- Decision D6: with an entry on the stack, Return goes to the newest entry and lowers sp; the entries keep their values
and nothing else changes. -/
def Obligations.ReturnPopsTheStack : Prop :=
  ∀ (s : State) (z : Nibble) (h : s.sp.val ≠ 0),
    decode (wordXKK 0x0 z 0xEE) = .ret z ∧
    ∃ t, exec (.ret z) s = .next t ∧ t.sp.val + 1 = s.sp.val ∧ t.stack = s.stack ∧
      t.pc = s.stack[s.sp.val - 1]'(Nat.lt_of_lt_of_le (Nat.sub_lt (Nat.pos_of_ne_zero h) Nat.one_pos)
        (Nat.le_of_lt_succ s.sp.isLt)) ∧
      UnchangedBut [.pc, .stack] s t

/-- Decisions D8 and D28, assumption 1: executing an Unrecognized word takes UnrecognizedInstruction, with its raw
bytes, and changes nothing else; the pc is that of the instruction. -/
def Obligations.UnrecognizedWordsTakeTheFault : Prop :=
  ∀ (s : State) (raw : Addr12) (op : Nibble) (i : Instr),
    (op = 0x0#4 ∧ i = .unrecognized0 raw) ∨ (op = 0x8#4 ∧ i = .unrecognized8 raw) ∨
      (op = 0xE#4 ∧ i = .unrecognizedE raw) ∨ (op = 0xF#4 ∧ i = .unrecognizedF raw) →
    exec i s = .next { s with
      pc := s.pc - 2#16
      fault := some { kind := .unrecognizedInstruction, addr := s.pc - 2#16,
                      bytes := some (op ++ raw.extractLsb' 8 4, raw.extractLsb' 0 8), dataAddr := none } }

/-! Jumps and calls -/

/-- R160: Jump sets the pc to its address, zero-extended and unchecked, and changes nothing else. -/
def Obligations.JumpSetsThePc : Prop :=
  ∀ (s : State) (nnn : Addr12), decode (wordNNN 0x1 nnn) = .jump nnn ∧
    ∃ t, exec (.jump nnn) s = .next t ∧ t.pc.toNat = nnn.toNat ∧ UnchangedBut [.pc] s t

/-- Decision D6: with fewer than 48 entries held, Call pushes the post-fetch pc and jumps; the other entries keep their
values and nothing else changes. -/
def Obligations.CallPushesAndJumps : Prop :=
  ∀ (s : State) (nnn : Addr12) (h : s.sp.val < 48), decode (wordNNN 0x2 nnn) = .call nnn ∧
    ∃ t, exec (.call nnn) s = .next t ∧ t.pc.toNat = nnn.toNat ∧ t.sp.val = s.sp.val + 1 ∧
      (∀ (k : Nat) (hk : k < 48), t.stack[k] = if k = s.sp.val then s.pc else s.stack[k]) ∧
      UnchangedBut [.pc, .stack] s t

/-- R164: JumpWithOffset adds x[0] to its address, with no wrap and no mask, and changes nothing else. -/
def Obligations.JumpWithOffsetAddsRegisterZero : Prop :=
  ∀ (s : State) (nnn : Addr12), decode (wordNNN 0xB nnn) = .jumpWithOffset nnn ∧
    ∃ t, exec (.jumpWithOffset nnn) s = .next t ∧ t.pc.toNat = (s.readReg 0x0).toNat + nnn.toNat ∧
      UnchangedBut [.pc] s t

/-! Conditional skips -/

/-- R181, R183: the skips on an immediate advance the pc by a further 2 when the register equals it, or differs from it,
and change nothing else. -/
def Obligations.SkipsOnAnImmediate : Prop :=
  ∀ (s : State) (ra : RegIdx) (kk : Byte),
    decode (wordXKK 0x3 ra kk) = .skipIfEqualImmediate ra kk ∧
    decode (wordXKK 0x4 ra kk) = .skipIfNotEqualImmediate ra kk ∧
    (∃ t, exec (.skipIfEqualImmediate ra kk) s = .next t ∧
      t.pc = (if s.readReg ra = kk then s.pc + 2#16 else s.pc) ∧ UnchangedBut [.pc] s t) ∧
    (∃ t, exec (.skipIfNotEqualImmediate ra kk) s = .next t ∧
      t.pc = (if s.readReg ra = kk then s.pc else s.pc + 2#16) ∧ UnchangedBut [.pc] s t)

/-- The skips on two registers, for every value of the ignored imm4 (decision D29). -/
def Obligations.SkipsOnTwoRegisters : Prop :=
  ∀ (s : State) (ra rb : RegIdx) (z : Nibble),
    decode (wordXYN 0x5 ra rb z) = .skipIfRegistersEqual ra rb z ∧
    decode (wordXYN 0x9 ra rb z) = .skipIfRegistersNotEqual ra rb z ∧
    (∃ t, exec (.skipIfRegistersEqual ra rb z) s = .next t ∧
      t.pc = (if s.readReg ra = s.readReg rb then s.pc + 2#16 else s.pc) ∧ UnchangedBut [.pc] s t) ∧
    (∃ t, exec (.skipIfRegistersNotEqual ra rb z) s = .next t ∧
      t.pc = (if s.readReg ra = s.readReg rb then s.pc else s.pc + 2#16) ∧ UnchangedBut [.pc] s t)

/-- R189, R191: the skips on a key read the key that the low nibble of x[rA] names. -/
def Obligations.SkipsOnAKey : Prop :=
  ∀ (s : State) (ra : RegIdx) (k : BitVec 4), k.toNat = (s.readReg ra).toNat % 16 →
    decode (wordXKK 0xE ra 0x9E) = .skipIfKeyPressed ra ∧ decode (wordXKK 0xE ra 0xA1) = .skipIfKeyNotPressed ra ∧
    (∃ t, exec (.skipIfKeyPressed ra) s = .next t ∧
      t.pc = (if s.keyPressed k = true then s.pc + 2#16 else s.pc) ∧ UnchangedBut [.pc] s t) ∧
    (∃ t, exec (.skipIfKeyNotPressed ra) s = .next t ∧
      t.pc = (if s.keyPressed k = true then s.pc else s.pc + 2#16) ∧ UnchangedBut [.pc] s t)

/-! Register-immediate operations -/

/-- R200: SetImmediate writes imm8 to x[rA] and changes nothing else. -/
def Obligations.SetImmediateWritesTheImmediate : Prop :=
  ∀ (s : State) (ra : RegIdx) (kk : Byte), decode (wordXKK 0x6 ra kk) = .setImmediate ra kk ∧
    ∃ t, exec (.setImmediate ra kk) s = .next t ∧ t.readReg ra = kk ∧ RegsUnchangedBut [ra] s t ∧
      UnchangedBut [.regs] s t

/-- R202: AddImmediate adds modulo 256 and writes no flag: VF changes only as the destination. -/
def Obligations.AddImmediateWrapsWithoutFlag : Prop :=
  ∀ (s : State) (ra : RegIdx) (kk : Byte), decode (wordXKK 0x7 ra kk) = .addImmediate ra kk ∧
    ∃ t, exec (.addImmediate ra kk) s = .next t ∧
      (t.readReg ra).toNat = ((s.readReg ra).toNat + kk.toNat) % 256 ∧ RegsUnchangedBut [ra] s t ∧
      UnchangedBut [.regs] s t

/-- Decision D15, assumption 2: Random writes a draw masked by imm8, so every bit that imm8 clears is 0; it takes exactly
one draw. The draw is a free value: the statement holds whatever it is. -/
def Obligations.RandomMasksOneDraw : Prop :=
  ∀ (s : State) (ra : RegIdx) (kk : Byte), decode (wordXKK 0xC ra kk) = .random ra kk ∧
    ∃ t, exec (.random ra kk) s = .next t ∧ t.draws = s.draws + 1 ∧
      (∀ k, k < 8 → (t.readReg ra).getLsbD k = ((Config.randomByte s.draws).getLsbD k && kk.getLsbD k)) ∧
      RegsUnchangedBut [ra] s t ∧ UnchangedBut [.regs, .draws] s t

/-! Opcode 0x8 family. Its selector values are what the spec took from general knowledge (assumption 17). -/

/-- Set, Or, And and Xor (assumption 17) write x[rA] and no other register: VF is left as it was unless it is the
destination (decision D16), bit by bit. -/
def Obligations.SetAndLogicWriteNoFlag : Prop :=
  ∀ (s : State) (ra rb : RegIdx),
    decode (wordXYN 0x8 ra rb 0x0) = .set ra rb ∧ decode (wordXYN 0x8 ra rb 0x1) = .or ra rb ∧
    decode (wordXYN 0x8 ra rb 0x2) = .and ra rb ∧ decode (wordXYN 0x8 ra rb 0x3) = .xor ra rb ∧
    ∀ (i : Instr) (f : Bool → Bool → Bool),
      (i = .set ra rb ∧ f = fun _ b => b) ∨ (i = .or ra rb ∧ f = fun a b => a || b) ∨
        (i = .and ra rb ∧ f = fun a b => a && b) ∨ (i = .xor ra rb ∧ f = fun a b => a ^^ b) →
      ∃ t, exec i s = .next t ∧
        (∀ k, k < 8 → (t.readReg ra).getLsbD k = f ((s.readReg ra).getLsbD k) ((s.readReg rb).getLsbD k)) ∧
        RegsUnchangedBut [ra] s t ∧ UnchangedBut [.regs] s t

/-- Add (assumption 17): the sum modulo 256 to x[rA], then the carry to VF, both from the old operands; with rA = 0xF
the carry is what stays. -/
def Obligations.AddWritesSumThenCarry : Prop :=
  ∀ (s : State) (ra rb : RegIdx), decode (wordXYN 0x8 ra rb 0x4) = .add ra rb ∧
    ∃ t, exec (.add ra rb) s = .next t ∧
      (ra ≠ vf → (t.readReg ra).toNat = ((s.readReg ra).toNat + (s.readReg rb).toNat) % 256) ∧
      (t.readReg vf).toNat = (if 255 < (s.readReg ra).toNat + (s.readReg rb).toNat then 1 else 0) ∧
      RegsUnchangedBut [ra, vf] s t ∧ UnchangedBut [.regs] s t

/-- SubtractAB and SubtractBA (assumption 17): the difference modulo 256 to x[rA], then no-borrow to VF, both from the
old operands; with rA = 0xF the flag is what stays. That equal operands do not borrow is the spec's own reading
(assumption 18). -/
def Obligations.SubtractsWriteDifferenceThenNoBorrow : Prop :=
  ∀ (s : State) (ra rb : RegIdx),
    decode (wordXYN 0x8 ra rb 0x5) = .subtractAB ra rb ∧ decode (wordXYN 0x8 ra rb 0x7) = .subtractBA ra rb ∧
    ∀ (i : Instr) (a b : Byte),
      (i = .subtractAB ra rb ∧ a = s.readReg ra ∧ b = s.readReg rb) ∨
        (i = .subtractBA ra rb ∧ a = s.readReg rb ∧ b = s.readReg ra) →
      ∃ t, exec i s = .next t ∧
        (ra ≠ vf → (t.readReg ra).toNat = if b.toNat ≤ a.toNat then a.toNat - b.toNat else a.toNat + 256 - b.toNat) ∧
        (t.readReg vf).toNat = (if b.toNat ≤ a.toNat then 1 else 0) ∧
        RegsUnchangedBut [ra, vf] s t ∧ UnchangedBut [.regs] s t

/-- ShiftRight and ShiftLeft (assumption 17): VF takes the bit shifted out and x[rA] the shifted value; with rA = 0xF
the flag is written first and then shifted (decision D12), so ShiftRight leaves 0 and ShiftLeft twice the old bit 7. rB
is never read. -/
def Obligations.ShiftsWriteTheFlagFirst : Prop :=
  ∀ (s : State) (ra rb : RegIdx),
    decode (wordXYN 0x8 ra rb 0x6) = .shiftRight ra rb ∧ decode (wordXYN 0x8 ra rb 0xE) = .shiftLeft ra rb ∧
    (∃ t, exec (.shiftRight ra rb) s = .next t ∧
      (ra ≠ vf → (t.readReg ra).toNat = (s.readReg ra).toNat / 2 ∧ (t.readReg vf).toNat = (s.readReg ra).toNat % 2) ∧
      (ra = vf → (t.readReg vf).toNat = 0) ∧
      RegsUnchangedBut [ra, vf] s t ∧ UnchangedBut [.regs] s t) ∧
    (∃ t, exec (.shiftLeft ra rb) s = .next t ∧
      (ra ≠ vf → (t.readReg ra).toNat = (s.readReg ra).toNat * 2 % 256 ∧
        (t.readReg vf).toNat = (s.readReg ra).toNat / 128) ∧
      (ra = vf → (t.readReg vf).toNat = (s.readReg vf).toNat / 128 * 2) ∧
      RegsUnchangedBut [ra, vf] s t ∧ UnchangedBut [.regs] s t)

/-! Index register and memory transfers -/

/-- R250: SetIndex writes addr12, zero-extended, to I and changes nothing else. -/
def Obligations.SetIndexWritesTheAddress : Prop :=
  ∀ (s : State) (nnn : Addr12), decode (wordNNN 0xA nnn) = .setIndex nnn ∧
    ∃ t, exec (.setIndex nnn) s = .next t ∧ t.I.toNat = nnn.toNat ∧ UnchangedBut [.index] s t

/-- Decision D9: AddIndex keeps 16 bits of the sum; VF becomes 1 when the sum is above 0xFFF and is not written
otherwise. -/
def Obligations.AddIndexFlagsOverflowPast0xFFF : Prop :=
  ∀ (s : State) (ra : RegIdx), decode (wordXKK 0xF ra 0x1E) = .addIndex ra ∧
    ∃ t, exec (.addIndex ra) s = .next t ∧
      t.I.toNat = (s.I.toNat + (s.readReg ra).toNat) % 65536 ∧
      (t.readReg vf) = (if 0x0FFF < s.I.toNat + (s.readReg ra).toNat then 1#8 else s.readReg vf) ∧
      RegsUnchangedBut [vf] s t ∧ UnchangedBut [.regs, .index] s t

/-- SetIndexGlyph points I at the glyph of the low nibble of x[rA] (that glyph d is at 0x050 + 5 d is decision D18). -/
def Obligations.SetIndexGlyphPointsAtTheGlyph : Prop :=
  ∀ (s : State) (ra : RegIdx), decode (wordXKK 0xF ra 0x29) = .setIndexGlyph ra ∧
    ∃ t, exec (.setIndexGlyph ra) s = .next t ∧ t.I.toNat = 0x050 + 5 * ((s.readReg ra).toNat % 16) ∧
      UnchangedBut [.index] s t

/-- StoreBCD, with I + 2 in bounds (decision D7): hundreds, tens and ones to I, I + 1, I + 2, every other byte of memory
and everything else unchanged, I included (decision D11). -/
def Obligations.StoreBCDStoresThreeDigits : Prop :=
  ∀ (s : State) (ra : RegIdx), s.memWf → s.I.toNat + 2 ≤ 0xFFF →
    decode (wordXKK 0xF ra 0x33) = .storeBCD ra ∧
    ∃ t, exec (.storeBCD ra) s = .next t ∧ t.memWf ∧
      (t.readByte s.I.toNat).toNat = (s.readReg ra).toNat / 100 ∧
      (t.readByte (s.I.toNat + 1)).toNat = (s.readReg ra).toNat / 10 % 10 ∧
      (t.readByte (s.I.toNat + 2)).toNat = (s.readReg ra).toNat % 10 ∧
      (∀ a, a < s.I.toNat ∨ s.I.toNat + 2 < a → t.readByte a = s.readByte a) ∧
      UnchangedBut [.memory] s t

/-- StoreRegisters, with I + rA in bounds (decision D7): x[0] to x[rA] to I to I + rA, every other byte of memory and
everything else unchanged, I included (decision D11). -/
def Obligations.StoreRegistersStoresUpToRA : Prop :=
  ∀ (s : State) (ra : RegIdx), s.memWf → s.I.toNat + ra.toNat ≤ 0xFFF →
    decode (wordXKK 0xF ra 0x55) = .storeRegisters ra ∧
    ∃ t, exec (.storeRegisters ra) s = .next t ∧ t.memWf ∧
      (∀ q : RegIdx, q.toNat ≤ ra.toNat → t.readByte (s.I.toNat + q.toNat) = s.readReg q) ∧
      (∀ a, a < s.I.toNat ∨ s.I.toNat + ra.toNat < a → t.readByte a = s.readByte a) ∧
      UnchangedBut [.memory] s t

/-- LoadRegisters, with I + N in bounds (decision D7): the bytes at I to I + N to x[0] to x[N], every other register and
everything else unchanged, I included (decision D11). N is rA, or 6 where the parameter LOAD_COUNT_FIELD is B (decision
D10, assumption 3). -/
def Obligations.LoadRegistersLoadsUpToN : Prop :=
  ∀ (s : State) (ra : RegIdx), s.I.toNat + lastLoaded s.params.loadCountField ra ≤ 0xFFF →
    decode (wordXKK 0xF ra 0x65) = .loadRegisters ra ∧
    ∃ t, exec (.loadRegisters ra) s = .next t ∧
      (∀ q : RegIdx, t.readReg q =
        if q.toNat ≤ lastLoaded s.params.loadCountField ra then s.readByte (s.I.toNat + q.toNat) else s.readReg q) ∧
      UnchangedBut [.regs] s t

/-! Draw -/

/-- Draw, where every row on screen lies in memory: each cell of the screen is the exclusive or of what it was with the
sprite's bit there, clipped at the right and bottom edges; VF is 1 exactly when a cell was turned from 1 to 0, else 0; no
other register and nothing else changes. The coordinates are read before VF is reset (decision D13), and rows below the
screen are not read (decision D14); an address is not reduced (D7) and I stays (D11). -/
def Obligations.DrawXorsTheClippedSprite : Prop :=
  ∀ (s : State) (ra rb : RegIdx) (n : Nibble),
    (∀ k, k < n.toNat → (s.readReg rb).toNat % 32 + k < 32 → s.I.toNat + k ≤ 0xFFF) →
    decode (wordXYN 0xD ra rb n) = .draw ra rb n ∧
    ∃ t, exec (.draw ra rb n) s = .next t ∧
      (∀ r c, r < 32 → c < 64 → t.pixel (r * 64 + c) = (s.pixel (r * 64 + c) ^^ s.spriteBit ra rb n r c)) ∧
      (s.spriteCollides ra rb n → t.readReg vf = 1#8) ∧ (¬ s.spriteCollides ra rb n → t.readReg vf = 0#8) ∧
      RegsUnchangedBut [vf] s t ∧ UnchangedBut [.regs, .display] s t

/-! Timers and keys -/

/-- R300, R302, R304: ReadDelay copies DT to x[rA]; WriteDelay and WriteSound copy x[rA] to DT and to ST. -/
def Obligations.TimerTransfers : Prop :=
  ∀ (s : State) (ra : RegIdx),
    decode (wordXKK 0xF ra 0x07) = .readDelay ra ∧ decode (wordXKK 0xF ra 0x15) = .writeDelay ra ∧
    decode (wordXKK 0xF ra 0x18) = .writeSound ra ∧
    (∃ t, exec (.readDelay ra) s = .next t ∧ t.readReg ra = s.DT ∧ RegsUnchangedBut [ra] s t ∧
      UnchangedBut [.regs] s t) ∧
    (∃ t, exec (.writeDelay ra) s = .next t ∧ t.DT = s.readReg ra ∧ UnchangedBut [.delay] s t) ∧
    (∃ t, exec (.writeSound ra) s = .next t ∧ t.ST = s.readReg ra ∧ UnchangedBut [.sound] s t)

/-- R306: GetKey writes the lowest pressed key to x[rA]; with no key pressed it changes nothing but the pc, which goes
back by 2 to the instruction. -/
def Obligations.GetKeyTakesTheLowestKeyOrStalls : Prop :=
  ∀ (s : State) (ra : RegIdx), decode (wordXKK 0xF ra 0x0A) = .getKey ra ∧
    (∀ k : BitVec 4, s.keyPressed k = true → (∀ l : BitVec 4, l.toNat < k.toNat → s.keyPressed l = false) →
      ∃ t, exec (.getKey ra) s = .next t ∧ (t.readReg ra).toNat = k.toNat ∧ RegsUnchangedBut [ra] s t ∧
        UnchangedBut [.regs] s t) ∧
    ((∀ l : BitVec 4, s.keyPressed l = false) → exec (.getKey ra) s = .next { s with pc := s.pc - 2#16 })

/-! Reset and the host interface -/

/-- R37: `new()` zeroes memory, registers, stack, timers and framebuffer, and populates 0x050 to 0x09F with the glyph
table, whichever it is. -/
def Obligations.NewZeroesAllButTheGlyphTable : Prop :=
  ∀ p : Params,
    (∀ a, (State.resetWith p).readByte a =
      if 0x050 ≤ a ∧ a ≤ 0x09F then p.glyphTable.toList.getD (a - 0x050) 0 else 0#8) ∧
    (∀ r, (State.resetWith p).readReg r = 0#8) ∧ (State.resetWith p).I = 0#16 ∧
    (∀ j : Fin 48, (State.resetWith p).stack[j] = 0#16) ∧ (State.resetWith p).sp = 0 ∧
    (State.resetWith p).DT = 0#8 ∧ (State.resetWith p).ST = 0#8 ∧ (∀ j, (State.resetWith p).pixel j = false)

/-- Decisions D2, D3 and D8: after `new()` the pc is 0, every key is released and no fault is set; the default parameters
are the font of decision D18 and registerA as the count field (decision D10). -/
def Obligations.NewLeavesPcKeysAndFaultAsDecided : Prop :=
  (∀ p : Params, (State.resetWith p).pc = 0#16 ∧ (∀ k, (State.resetWith p).keyPressed k = false) ∧
    (State.resetWith p).fault = none) ∧
  State.reset = State.resetWith defaultParams ∧ defaultParams.loadCountField = .a ∧
  (List.range 5).map (fun k => State.reset.readByte (0x082 + k)) = [0xF0#8, 0x90#8, 0xF0#8, 0x90#8, 0x90#8]

/-- A load of at most 3584 bytes puts them at 0x200 and up and the pc at 0x200, and changes nothing else; a longer one is
rejected as too large (70_reset_and_hazards.md section 2). The spec gives `load` a meaning on the state after `new()` only
(decision D23): that it does the same on every other state with canonical memory, in the middle of a run or halted, is the
model's choice (assumption 26). -/
def Obligations.LoadPlacesTheProgramOrRejectsIt : Prop :=
  ∀ (s : State) (bytes : List Byte), s.memWf →
    (bytes.length ≤ 3584 → ∃ t, s.load bytes = .accepted t ∧ t.memWf ∧ t.pc = 0x200#16 ∧
      (∀ a, t.readByte a =
        if 0x200 ≤ a ∧ a < 0x200 + bytes.length then bytes.getD (a - 0x200) 0 else s.readByte a) ∧
      UnchangedBut [.pc, .memory] s t) ∧
    (3584 < bytes.length → s.load bytes = .rejected .loadTooLarge)

/-- Decisions D20 and D21: each decrement lowers its own timer by 1 unless it is 0, and `set_key` presses its key on a
nonzero value and releases it on 0; none of them changes anything else. -/
def Obligations.HostMovesDoOneThingEach : Prop :=
  ∀ s : State,
    ((s.hostMove .decrementDelay).DT.toNat = s.DT.toNat - 1 ∧ UnchangedBut [.delay] s (s.hostMove .decrementDelay)) ∧
    ((s.hostMove .decrementSound).ST.toNat = s.ST.toNat - 1 ∧ UnchangedBut [.sound] s (s.hostMove .decrementSound)) ∧
    ∀ (k l : BitVec 4) (v : Byte),
      ((s.hostMove (.setKey k v)).keyPressed l = true ↔ if l = k then v ≠ 0#8 else s.keyPressed l = true) ∧
      UnchangedBut [.keys] s (s.hostMove (.setKey k v))
end

