-- ==== Sys2Proof/Laws/Decode.lean ====
section
/-! SUPPORT. The fields of the words the encoder builds, and the words rebuilt from their fields (30_encoding.md R82). -/

namespace Sys2Proof

/-- The value of a field: division by a power of two, then a remainder. -/
theorem field_toNat (w : Word) (lo len : Nat) : (w.extractLsb' lo len).toNat = w.toNat / 2 ^ lo % 2 ^ len := by
  rw [BitVec.extractLsb'_toNat, Nat.shiftRight_eq_div_pow]

/-- The value of a word built from op, x, y and n. -/
theorem wordXYN_toNat (op x y n : Nibble) :
    (wordXYN op x y n).toNat = op.toNat * 4096 + x.toNat * 256 + y.toNat * 16 + n.toNat := by
  have ho := op.isLt; have hx := x.isLt; have hy := y.isLt; have hn := n.isLt
  unfold wordXYN
  rw [BitVec.toNat_append, BitVec.toNat_append, BitVec.toNat_append,
    ← Nat.shiftLeft_add_eq_or_of_lt x.isLt, ← Nat.shiftLeft_add_eq_or_of_lt y.isLt,
    ← Nat.shiftLeft_add_eq_or_of_lt n.isLt]
  simp only [Nat.shiftLeft_eq]
  omega

/-- The value of a word built from op, x and kk. -/
theorem wordXKK_toNat (op x : Nibble) (kk : Byte) :
    (wordXKK op x kk).toNat = op.toNat * 4096 + x.toNat * 256 + kk.toNat := by
  unfold wordXKK
  rw [BitVec.toNat_append, BitVec.toNat_append, ← Nat.shiftLeft_add_eq_or_of_lt x.isLt,
    ← Nat.shiftLeft_add_eq_or_of_lt kk.isLt]
  simp only [Nat.shiftLeft_eq]
  omega

/-- The value of a word built from op and nnn. -/
theorem wordNNN_toNat (op : Nibble) (nnn : Addr12) : (wordNNN op nnn).toNat = op.toNat * 4096 + nnn.toNat := by
  unfold wordNNN
  rw [BitVec.toNat_append, ← Nat.shiftLeft_add_eq_or_of_lt nnn.isLt]
  simp only [Nat.shiftLeft_eq]

/-- The value of a word built from two bytes. -/
theorem wordOfBytes_toNat (b0 b1 : Byte) : (wordOfBytes b0 b1).toNat = b0.toNat * 256 + b1.toNat := by
  unfold wordOfBytes
  rw [BitVec.toNat_append, ← Nat.shiftLeft_add_eq_or_of_lt b1.isLt]
  simp only [Nat.shiftLeft_eq]

section Fields
variable (op x y n : Nibble) (kk : Byte) (nnn : Addr12)

@[simp] theorem opcodeOf_wordXYN : opcodeOf (wordXYN op x y n) = op := by
  apply BitVec.eq_of_toNat_eq; rw [opcodeOf, field_toNat, wordXYN_toNat]; omega
@[simp] theorem registerAOf_wordXYN : registerAOf (wordXYN op x y n) = x := by
  apply BitVec.eq_of_toNat_eq; rw [registerAOf, field_toNat, wordXYN_toNat]; omega
@[simp] theorem registerBOf_wordXYN : registerBOf (wordXYN op x y n) = y := by
  apply BitVec.eq_of_toNat_eq; rw [registerBOf, field_toNat, wordXYN_toNat]; omega
@[simp] theorem imm4Of_wordXYN : imm4Of (wordXYN op x y n) = n := by
  apply BitVec.eq_of_toNat_eq; rw [imm4Of, field_toNat, wordXYN_toNat]; omega
@[simp] theorem opcodeOf_wordXKK : opcodeOf (wordXKK op x kk) = op := by
  apply BitVec.eq_of_toNat_eq; rw [opcodeOf, field_toNat, wordXKK_toNat]; omega
@[simp] theorem registerAOf_wordXKK : registerAOf (wordXKK op x kk) = x := by
  apply BitVec.eq_of_toNat_eq; rw [registerAOf, field_toNat, wordXKK_toNat]; omega
@[simp] theorem byte1Of_wordXKK : byte1Of (wordXKK op x kk) = kk := by
  apply BitVec.eq_of_toNat_eq; rw [byte1Of, field_toNat, wordXKK_toNat]; omega
@[simp] theorem opcodeOf_wordNNN : opcodeOf (wordNNN op nnn) = op := by
  apply BitVec.eq_of_toNat_eq; rw [opcodeOf, field_toNat, wordNNN_toNat]; omega
@[simp] theorem addr12Of_wordNNN : addr12Of (wordNNN op nnn) = nnn := by
  apply BitVec.eq_of_toNat_eq; rw [addr12Of, field_toNat, wordNNN_toNat]; omega
@[simp] theorem byte1Of_wordNNN : byte1Of (wordNNN op nnn) = rawByte1 nnn := by
  apply BitVec.eq_of_toNat_eq
  rw [byte1Of, field_toNat, wordNNN_toNat, rawByte1, BitVec.extractLsb'_toNat, Nat.shiftRight_zero]; omega
@[simp] theorem imm4Of_wordNNN : imm4Of (wordNNN op nnn) = rawImm4 nnn := by
  apply BitVec.eq_of_toNat_eq
  rw [imm4Of, field_toNat, wordNNN_toNat, rawImm4, BitVec.extractLsb'_toNat, Nat.shiftRight_zero]; omega

end Fields

/-- byte1 of a word is byte1 of its low 12 bits. -/
@[simp] theorem rawByte1_addr12Of (w : Word) : rawByte1 (addr12Of w) = byte1Of w := by
  apply BitVec.eq_of_toNat_eq
  rw [byte1Of, field_toNat, rawByte1, BitVec.extractLsb'_toNat, Nat.shiftRight_zero, addr12Of, field_toNat]; omega

/-- imm4 of a word is imm4 of its low 12 bits. -/
@[simp] theorem rawImm4_addr12Of (w : Word) : rawImm4 (addr12Of w) = imm4Of w := by
  apply BitVec.eq_of_toNat_eq
  rw [imm4Of, field_toNat, rawImm4, BitVec.extractLsb'_toNat, Nat.shiftRight_zero, addr12Of, field_toNat]; omega

/-- A word is its four nibbles. -/
theorem wordXYN_fields (w : Word) : wordXYN (opcodeOf w) (registerAOf w) (registerBOf w) (imm4Of w) = w := by
  apply BitVec.eq_of_toNat_eq
  have := w.isLt
  rw [wordXYN_toNat, opcodeOf, registerAOf, registerBOf, imm4Of, field_toNat, field_toNat, field_toNat, field_toNat]
  omega

/-- A word is its opcode, registerA and imm8. -/
theorem wordXKK_fields (w : Word) : wordXKK (opcodeOf w) (registerAOf w) (byte1Of w) = w := by
  apply BitVec.eq_of_toNat_eq
  have := w.isLt
  rw [wordXKK_toNat, opcodeOf, registerAOf, byte1Of, field_toNat, field_toNat, field_toNat]
  omega

/-- A word is its opcode and addr12. -/
theorem wordNNN_fields (w : Word) : wordNNN (opcodeOf w) (addr12Of w) = w := by
  apply BitVec.eq_of_toNat_eq
  have := w.isLt
  rw [wordNNN_toNat, opcodeOf, addr12Of, field_toNat, field_toNat]
  omega

/-- A word is its two bytes. -/
@[simp] theorem wordOfBytes_bytes (w : Word) : wordOfBytes (byte0Of w) (byte1Of w) = w := by
  apply BitVec.eq_of_toNat_eq
  have := w.isLt
  rw [wordOfBytes_toNat, byte0Of, byte1Of, field_toNat, field_toNat]
  omega

/-- byte0 of a word built from two bytes. -/
@[simp] theorem byte0Of_wordOfBytes (b0 b1 : Byte) : byte0Of (wordOfBytes b0 b1) = b0 := by
  apply BitVec.eq_of_toNat_eq; rw [byte0Of, field_toNat, wordOfBytes_toNat]; omega

/-- byte1 of a word built from two bytes. -/
@[simp] theorem byte1Of_wordOfBytes (b0 b1 : Byte) : byte1Of (wordOfBytes b0 b1) = b1 := by
  apply BitVec.eq_of_toNat_eq; rw [byte1Of, field_toNat, wordOfBytes_toNat]; omega

/-- A nibble that is none of 0 to E is F: the last arm of the decoder is the 0xF family. -/
theorem nibble_eq_F (x : Nibble) (h : x ≠ 0x0#4 ∧ x ≠ 0x1#4 ∧ x ≠ 0x2#4 ∧ x ≠ 0x3#4 ∧ x ≠ 0x4#4 ∧ x ≠ 0x5#4 ∧ x ≠ 0x6#4 ∧
    x ≠ 0x7#4 ∧ x ≠ 0x8#4 ∧ x ≠ 0x9#4 ∧ x ≠ 0xA#4 ∧ x ≠ 0xB#4 ∧ x ≠ 0xC#4 ∧ x ≠ 0xD#4 ∧ x ≠ 0xE#4) : x = 0xF#4 := by
  simp only [ne_eq, ← BitVec.toNat_inj, BitVec.toNat_ofNat] at h ⊢
  omega

/-- The selectors of the 0x8 family's residual: none of 0 to 7 and not E (R89, R92). -/
theorem nibble_residual8 (x : Nibble) (h : x ≠ 0x0#4 ∧ x ≠ 0x1#4 ∧ x ≠ 0x2#4 ∧ x ≠ 0x3#4 ∧ x ≠ 0x4#4 ∧ x ≠ 0x5#4 ∧
    x ≠ 0x6#4 ∧ x ≠ 0x7#4 ∧ x ≠ 0xE#4) :
    x = 0x8#4 ∨ x = 0x9#4 ∨ x = 0xA#4 ∨ x = 0xB#4 ∨ x = 0xC#4 ∨ x = 0xD#4 ∨ x = 0xF#4 := by
  simp only [ne_eq, ← BitVec.toNat_inj, BitVec.toNat_ofNat] at h ⊢
  omega

end Sys2Proof
end

