-- ==== Sys2Proof/Laws/State.lean ====
section
/-! SUPPORT. What each update of the state does to each field and to each accessor, one lemma a pair, so that no later
proof unfolds a record update. -/

namespace Sys2Proof.Machine

variable (s : State)

/-! writeByte -/

@[simp] theorem State.writeByte_x (a : Nat) (v : Byte) : (s.writeByte a v).x = s.x := rfl
@[simp] theorem State.writeByte_I (a : Nat) (v : Byte) : (s.writeByte a v).I = s.I := rfl
@[simp] theorem State.writeByte_pc (a : Nat) (v : Byte) : (s.writeByte a v).pc = s.pc := rfl
@[simp] theorem State.writeByte_sp (a : Nat) (v : Byte) : (s.writeByte a v).sp = s.sp := rfl
@[simp] theorem State.writeByte_stack (a : Nat) (v : Byte) : (s.writeByte a v).stack = s.stack := rfl
@[simp] theorem State.writeByte_DT (a : Nat) (v : Byte) : (s.writeByte a v).DT = s.DT := rfl
@[simp] theorem State.writeByte_ST (a : Nat) (v : Byte) : (s.writeByte a v).ST = s.ST := rfl
@[simp] theorem State.writeByte_fb (a : Nat) (v : Byte) : (s.writeByte a v).fb = s.fb := rfl
@[simp] theorem State.writeByte_keys (a : Nat) (v : Byte) : (s.writeByte a v).keys = s.keys := rfl
@[simp] theorem State.writeByte_mem (a : Nat) (v : Byte) : (s.writeByte a v).mem = Memory.write (resetByte s.params) s.mem a v := rfl
@[simp] theorem State.writeByte_fault (a : Nat) (v : Byte) : (s.writeByte a v).fault = s.fault := rfl
@[simp] theorem State.writeByte_params (a : Nat) (v : Byte) : (s.writeByte a v).params = s.params := rfl
@[simp] theorem State.writeByte_draws (a : Nat) (v : Byte) : (s.writeByte a v).draws = s.draws := rfl
@[simp] theorem State.writeByte_readReg (a : Nat) (v : Byte) (q : RegIdx) : (s.writeByte a v).readReg q = s.readReg q := rfl
@[simp] theorem State.writeByte_keyPressed (a : Nat) (v : Byte) (q : BitVec 4) : (s.writeByte a v).keyPressed q = s.keyPressed q := rfl
@[simp] theorem State.writeByte_pixel (a : Nat) (v : Byte) (q : Nat) : (s.writeByte a v).pixel q = s.pixel q := rfl

/-! writeReg -/

@[simp] theorem State.writeReg_x (r : RegIdx) (v : Byte) : (s.writeReg r v).x = s.x.set r.toNat v r.isLt := rfl
@[simp] theorem State.writeReg_I (r : RegIdx) (v : Byte) : (s.writeReg r v).I = s.I := rfl
@[simp] theorem State.writeReg_pc (r : RegIdx) (v : Byte) : (s.writeReg r v).pc = s.pc := rfl
@[simp] theorem State.writeReg_sp (r : RegIdx) (v : Byte) : (s.writeReg r v).sp = s.sp := rfl
@[simp] theorem State.writeReg_stack (r : RegIdx) (v : Byte) : (s.writeReg r v).stack = s.stack := rfl
@[simp] theorem State.writeReg_DT (r : RegIdx) (v : Byte) : (s.writeReg r v).DT = s.DT := rfl
@[simp] theorem State.writeReg_ST (r : RegIdx) (v : Byte) : (s.writeReg r v).ST = s.ST := rfl
@[simp] theorem State.writeReg_fb (r : RegIdx) (v : Byte) : (s.writeReg r v).fb = s.fb := rfl
@[simp] theorem State.writeReg_keys (r : RegIdx) (v : Byte) : (s.writeReg r v).keys = s.keys := rfl
@[simp] theorem State.writeReg_mem (r : RegIdx) (v : Byte) : (s.writeReg r v).mem = s.mem := rfl
@[simp] theorem State.writeReg_fault (r : RegIdx) (v : Byte) : (s.writeReg r v).fault = s.fault := rfl
@[simp] theorem State.writeReg_params (r : RegIdx) (v : Byte) : (s.writeReg r v).params = s.params := rfl
@[simp] theorem State.writeReg_draws (r : RegIdx) (v : Byte) : (s.writeReg r v).draws = s.draws := rfl
@[simp] theorem State.writeReg_keyPressed (r : RegIdx) (v : Byte) (q : BitVec 4) : (s.writeReg r v).keyPressed q = s.keyPressed q := rfl
@[simp] theorem State.writeReg_pixel (r : RegIdx) (v : Byte) (q : Nat) : (s.writeReg r v).pixel q = s.pixel q := rfl
@[simp] theorem State.writeReg_readByte (r : RegIdx) (v : Byte) (q : Nat) : (s.writeReg r v).readByte q = s.readByte q := rfl

/-! setI -/

@[simp] theorem State.setI_x (v : Word) : (s.setI v).x = s.x := rfl
@[simp] theorem State.setI_I (v : Word) : (s.setI v).I = v := rfl
@[simp] theorem State.setI_pc (v : Word) : (s.setI v).pc = s.pc := rfl
@[simp] theorem State.setI_sp (v : Word) : (s.setI v).sp = s.sp := rfl
@[simp] theorem State.setI_stack (v : Word) : (s.setI v).stack = s.stack := rfl
@[simp] theorem State.setI_DT (v : Word) : (s.setI v).DT = s.DT := rfl
@[simp] theorem State.setI_ST (v : Word) : (s.setI v).ST = s.ST := rfl
@[simp] theorem State.setI_fb (v : Word) : (s.setI v).fb = s.fb := rfl
@[simp] theorem State.setI_keys (v : Word) : (s.setI v).keys = s.keys := rfl
@[simp] theorem State.setI_mem (v : Word) : (s.setI v).mem = s.mem := rfl
@[simp] theorem State.setI_fault (v : Word) : (s.setI v).fault = s.fault := rfl
@[simp] theorem State.setI_params (v : Word) : (s.setI v).params = s.params := rfl
@[simp] theorem State.setI_draws (v : Word) : (s.setI v).draws = s.draws := rfl
@[simp] theorem State.setI_readReg (v : Word) (q : RegIdx) : (s.setI v).readReg q = s.readReg q := rfl
@[simp] theorem State.setI_keyPressed (v : Word) (q : BitVec 4) : (s.setI v).keyPressed q = s.keyPressed q := rfl
@[simp] theorem State.setI_pixel (v : Word) (q : Nat) : (s.setI v).pixel q = s.pixel q := rfl
@[simp] theorem State.setI_readByte (v : Word) (q : Nat) : (s.setI v).readByte q = s.readByte q := rfl

/-! setPc -/

@[simp] theorem State.setPc_x (v : Word) : (s.setPc v).x = s.x := rfl
@[simp] theorem State.setPc_I (v : Word) : (s.setPc v).I = s.I := rfl
@[simp] theorem State.setPc_pc (v : Word) : (s.setPc v).pc = v := rfl
@[simp] theorem State.setPc_sp (v : Word) : (s.setPc v).sp = s.sp := rfl
@[simp] theorem State.setPc_stack (v : Word) : (s.setPc v).stack = s.stack := rfl
@[simp] theorem State.setPc_DT (v : Word) : (s.setPc v).DT = s.DT := rfl
@[simp] theorem State.setPc_ST (v : Word) : (s.setPc v).ST = s.ST := rfl
@[simp] theorem State.setPc_fb (v : Word) : (s.setPc v).fb = s.fb := rfl
@[simp] theorem State.setPc_keys (v : Word) : (s.setPc v).keys = s.keys := rfl
@[simp] theorem State.setPc_mem (v : Word) : (s.setPc v).mem = s.mem := rfl
@[simp] theorem State.setPc_fault (v : Word) : (s.setPc v).fault = s.fault := rfl
@[simp] theorem State.setPc_params (v : Word) : (s.setPc v).params = s.params := rfl
@[simp] theorem State.setPc_draws (v : Word) : (s.setPc v).draws = s.draws := rfl
@[simp] theorem State.setPc_readReg (v : Word) (q : RegIdx) : (s.setPc v).readReg q = s.readReg q := rfl
@[simp] theorem State.setPc_keyPressed (v : Word) (q : BitVec 4) : (s.setPc v).keyPressed q = s.keyPressed q := rfl
@[simp] theorem State.setPc_pixel (v : Word) (q : Nat) : (s.setPc v).pixel q = s.pixel q := rfl
@[simp] theorem State.setPc_readByte (v : Word) (q : Nat) : (s.setPc v).readByte q = s.readByte q := rfl

/-! advancePc -/

@[simp] theorem State.advancePc_x : (s.advancePc).x = s.x := rfl
@[simp] theorem State.advancePc_I : (s.advancePc).I = s.I := rfl
@[simp] theorem State.advancePc_pc : (s.advancePc).pc = s.pc + 2#16 := rfl
@[simp] theorem State.advancePc_sp : (s.advancePc).sp = s.sp := rfl
@[simp] theorem State.advancePc_stack : (s.advancePc).stack = s.stack := rfl
@[simp] theorem State.advancePc_DT : (s.advancePc).DT = s.DT := rfl
@[simp] theorem State.advancePc_ST : (s.advancePc).ST = s.ST := rfl
@[simp] theorem State.advancePc_fb : (s.advancePc).fb = s.fb := rfl
@[simp] theorem State.advancePc_keys : (s.advancePc).keys = s.keys := rfl
@[simp] theorem State.advancePc_mem : (s.advancePc).mem = s.mem := rfl
@[simp] theorem State.advancePc_fault : (s.advancePc).fault = s.fault := rfl
@[simp] theorem State.advancePc_params : (s.advancePc).params = s.params := rfl
@[simp] theorem State.advancePc_draws : (s.advancePc).draws = s.draws := rfl
@[simp] theorem State.advancePc_readReg (q : RegIdx) : (s.advancePc).readReg q = s.readReg q := rfl
@[simp] theorem State.advancePc_keyPressed (q : BitVec 4) : (s.advancePc).keyPressed q = s.keyPressed q := rfl
@[simp] theorem State.advancePc_pixel (q : Nat) : (s.advancePc).pixel q = s.pixel q := rfl
@[simp] theorem State.advancePc_readByte (q : Nat) : (s.advancePc).readByte q = s.readByte q := rfl

/-! rewindPc -/

@[simp] theorem State.rewindPc_x : (s.rewindPc).x = s.x := rfl
@[simp] theorem State.rewindPc_I : (s.rewindPc).I = s.I := rfl
@[simp] theorem State.rewindPc_pc : (s.rewindPc).pc = s.pc - 2#16 := rfl
@[simp] theorem State.rewindPc_sp : (s.rewindPc).sp = s.sp := rfl
@[simp] theorem State.rewindPc_stack : (s.rewindPc).stack = s.stack := rfl
@[simp] theorem State.rewindPc_DT : (s.rewindPc).DT = s.DT := rfl
@[simp] theorem State.rewindPc_ST : (s.rewindPc).ST = s.ST := rfl
@[simp] theorem State.rewindPc_fb : (s.rewindPc).fb = s.fb := rfl
@[simp] theorem State.rewindPc_keys : (s.rewindPc).keys = s.keys := rfl
@[simp] theorem State.rewindPc_mem : (s.rewindPc).mem = s.mem := rfl
@[simp] theorem State.rewindPc_fault : (s.rewindPc).fault = s.fault := rfl
@[simp] theorem State.rewindPc_params : (s.rewindPc).params = s.params := rfl
@[simp] theorem State.rewindPc_draws : (s.rewindPc).draws = s.draws := rfl
@[simp] theorem State.rewindPc_readReg (q : RegIdx) : (s.rewindPc).readReg q = s.readReg q := rfl
@[simp] theorem State.rewindPc_keyPressed (q : BitVec 4) : (s.rewindPc).keyPressed q = s.keyPressed q := rfl
@[simp] theorem State.rewindPc_pixel (q : Nat) : (s.rewindPc).pixel q = s.pixel q := rfl
@[simp] theorem State.rewindPc_readByte (q : Nat) : (s.rewindPc).readByte q = s.readByte q := rfl

/-! setDT -/

@[simp] theorem State.setDT_x (v : Byte) : (s.setDT v).x = s.x := rfl
@[simp] theorem State.setDT_I (v : Byte) : (s.setDT v).I = s.I := rfl
@[simp] theorem State.setDT_pc (v : Byte) : (s.setDT v).pc = s.pc := rfl
@[simp] theorem State.setDT_sp (v : Byte) : (s.setDT v).sp = s.sp := rfl
@[simp] theorem State.setDT_stack (v : Byte) : (s.setDT v).stack = s.stack := rfl
@[simp] theorem State.setDT_DT (v : Byte) : (s.setDT v).DT = v := rfl
@[simp] theorem State.setDT_ST (v : Byte) : (s.setDT v).ST = s.ST := rfl
@[simp] theorem State.setDT_fb (v : Byte) : (s.setDT v).fb = s.fb := rfl
@[simp] theorem State.setDT_keys (v : Byte) : (s.setDT v).keys = s.keys := rfl
@[simp] theorem State.setDT_mem (v : Byte) : (s.setDT v).mem = s.mem := rfl
@[simp] theorem State.setDT_fault (v : Byte) : (s.setDT v).fault = s.fault := rfl
@[simp] theorem State.setDT_params (v : Byte) : (s.setDT v).params = s.params := rfl
@[simp] theorem State.setDT_draws (v : Byte) : (s.setDT v).draws = s.draws := rfl
@[simp] theorem State.setDT_readReg (v : Byte) (q : RegIdx) : (s.setDT v).readReg q = s.readReg q := rfl
@[simp] theorem State.setDT_keyPressed (v : Byte) (q : BitVec 4) : (s.setDT v).keyPressed q = s.keyPressed q := rfl
@[simp] theorem State.setDT_pixel (v : Byte) (q : Nat) : (s.setDT v).pixel q = s.pixel q := rfl
@[simp] theorem State.setDT_readByte (v : Byte) (q : Nat) : (s.setDT v).readByte q = s.readByte q := rfl

/-! setST -/

@[simp] theorem State.setST_x (v : Byte) : (s.setST v).x = s.x := rfl
@[simp] theorem State.setST_I (v : Byte) : (s.setST v).I = s.I := rfl
@[simp] theorem State.setST_pc (v : Byte) : (s.setST v).pc = s.pc := rfl
@[simp] theorem State.setST_sp (v : Byte) : (s.setST v).sp = s.sp := rfl
@[simp] theorem State.setST_stack (v : Byte) : (s.setST v).stack = s.stack := rfl
@[simp] theorem State.setST_DT (v : Byte) : (s.setST v).DT = s.DT := rfl
@[simp] theorem State.setST_ST (v : Byte) : (s.setST v).ST = v := rfl
@[simp] theorem State.setST_fb (v : Byte) : (s.setST v).fb = s.fb := rfl
@[simp] theorem State.setST_keys (v : Byte) : (s.setST v).keys = s.keys := rfl
@[simp] theorem State.setST_mem (v : Byte) : (s.setST v).mem = s.mem := rfl
@[simp] theorem State.setST_fault (v : Byte) : (s.setST v).fault = s.fault := rfl
@[simp] theorem State.setST_params (v : Byte) : (s.setST v).params = s.params := rfl
@[simp] theorem State.setST_draws (v : Byte) : (s.setST v).draws = s.draws := rfl
@[simp] theorem State.setST_readReg (v : Byte) (q : RegIdx) : (s.setST v).readReg q = s.readReg q := rfl
@[simp] theorem State.setST_keyPressed (v : Byte) (q : BitVec 4) : (s.setST v).keyPressed q = s.keyPressed q := rfl
@[simp] theorem State.setST_pixel (v : Byte) (q : Nat) : (s.setST v).pixel q = s.pixel q := rfl
@[simp] theorem State.setST_readByte (v : Byte) (q : Nat) : (s.setST v).readByte q = s.readByte q := rfl

/-! writeKey -/

@[simp] theorem State.writeKey_x (k : BitVec 4) (b : Bool) : (s.writeKey k b).x = s.x := rfl
@[simp] theorem State.writeKey_I (k : BitVec 4) (b : Bool) : (s.writeKey k b).I = s.I := rfl
@[simp] theorem State.writeKey_pc (k : BitVec 4) (b : Bool) : (s.writeKey k b).pc = s.pc := rfl
@[simp] theorem State.writeKey_sp (k : BitVec 4) (b : Bool) : (s.writeKey k b).sp = s.sp := rfl
@[simp] theorem State.writeKey_stack (k : BitVec 4) (b : Bool) : (s.writeKey k b).stack = s.stack := rfl
@[simp] theorem State.writeKey_DT (k : BitVec 4) (b : Bool) : (s.writeKey k b).DT = s.DT := rfl
@[simp] theorem State.writeKey_ST (k : BitVec 4) (b : Bool) : (s.writeKey k b).ST = s.ST := rfl
@[simp] theorem State.writeKey_fb (k : BitVec 4) (b : Bool) : (s.writeKey k b).fb = s.fb := rfl
@[simp] theorem State.writeKey_keys (k : BitVec 4) (b : Bool) : (s.writeKey k b).keys = s.keys.set k.toNat b k.isLt := rfl
@[simp] theorem State.writeKey_mem (k : BitVec 4) (b : Bool) : (s.writeKey k b).mem = s.mem := rfl
@[simp] theorem State.writeKey_fault (k : BitVec 4) (b : Bool) : (s.writeKey k b).fault = s.fault := rfl
@[simp] theorem State.writeKey_params (k : BitVec 4) (b : Bool) : (s.writeKey k b).params = s.params := rfl
@[simp] theorem State.writeKey_draws (k : BitVec 4) (b : Bool) : (s.writeKey k b).draws = s.draws := rfl
@[simp] theorem State.writeKey_readReg (k : BitVec 4) (b : Bool) (q : RegIdx) : (s.writeKey k b).readReg q = s.readReg q := rfl
@[simp] theorem State.writeKey_pixel (k : BitVec 4) (b : Bool) (q : Nat) : (s.writeKey k b).pixel q = s.pixel q := rfl
@[simp] theorem State.writeKey_readByte (k : BitVec 4) (b : Bool) (q : Nat) : (s.writeKey k b).readByte q = s.readByte q := rfl

/-! setPixel -/

@[simp] theorem State.setPixel_x (j : Nat) (v : Bool) : (s.setPixel j v).x = s.x := rfl
@[simp] theorem State.setPixel_I (j : Nat) (v : Bool) : (s.setPixel j v).I = s.I := rfl
@[simp] theorem State.setPixel_pc (j : Nat) (v : Bool) : (s.setPixel j v).pc = s.pc := rfl
@[simp] theorem State.setPixel_sp (j : Nat) (v : Bool) : (s.setPixel j v).sp = s.sp := rfl
@[simp] theorem State.setPixel_stack (j : Nat) (v : Bool) : (s.setPixel j v).stack = s.stack := rfl
@[simp] theorem State.setPixel_DT (j : Nat) (v : Bool) : (s.setPixel j v).DT = s.DT := rfl
@[simp] theorem State.setPixel_ST (j : Nat) (v : Bool) : (s.setPixel j v).ST = s.ST := rfl
@[simp] theorem State.setPixel_fb (j : Nat) (v : Bool) : (s.setPixel j v).fb = s.fb.setIfInBounds j v := rfl
@[simp] theorem State.setPixel_keys (j : Nat) (v : Bool) : (s.setPixel j v).keys = s.keys := rfl
@[simp] theorem State.setPixel_mem (j : Nat) (v : Bool) : (s.setPixel j v).mem = s.mem := rfl
@[simp] theorem State.setPixel_fault (j : Nat) (v : Bool) : (s.setPixel j v).fault = s.fault := rfl
@[simp] theorem State.setPixel_params (j : Nat) (v : Bool) : (s.setPixel j v).params = s.params := rfl
@[simp] theorem State.setPixel_draws (j : Nat) (v : Bool) : (s.setPixel j v).draws = s.draws := rfl
@[simp] theorem State.setPixel_readReg (j : Nat) (v : Bool) (q : RegIdx) : (s.setPixel j v).readReg q = s.readReg q := rfl
@[simp] theorem State.setPixel_keyPressed (j : Nat) (v : Bool) (q : BitVec 4) : (s.setPixel j v).keyPressed q = s.keyPressed q := rfl
@[simp] theorem State.setPixel_readByte (j : Nat) (v : Bool) (q : Nat) : (s.setPixel j v).readByte q = s.readByte q := rfl

/-! clearDisplay -/

@[simp] theorem State.clearDisplay_x : (s.clearDisplay).x = s.x := rfl
@[simp] theorem State.clearDisplay_I : (s.clearDisplay).I = s.I := rfl
@[simp] theorem State.clearDisplay_pc : (s.clearDisplay).pc = s.pc := rfl
@[simp] theorem State.clearDisplay_sp : (s.clearDisplay).sp = s.sp := rfl
@[simp] theorem State.clearDisplay_stack : (s.clearDisplay).stack = s.stack := rfl
@[simp] theorem State.clearDisplay_DT : (s.clearDisplay).DT = s.DT := rfl
@[simp] theorem State.clearDisplay_ST : (s.clearDisplay).ST = s.ST := rfl
@[simp] theorem State.clearDisplay_fb : (s.clearDisplay).fb = Vector.replicate 2048 false := rfl
@[simp] theorem State.clearDisplay_keys : (s.clearDisplay).keys = s.keys := rfl
@[simp] theorem State.clearDisplay_mem : (s.clearDisplay).mem = s.mem := rfl
@[simp] theorem State.clearDisplay_fault : (s.clearDisplay).fault = s.fault := rfl
@[simp] theorem State.clearDisplay_params : (s.clearDisplay).params = s.params := rfl
@[simp] theorem State.clearDisplay_draws : (s.clearDisplay).draws = s.draws := rfl
@[simp] theorem State.clearDisplay_readReg (q : RegIdx) : (s.clearDisplay).readReg q = s.readReg q := rfl
@[simp] theorem State.clearDisplay_keyPressed (q : BitVec 4) : (s.clearDisplay).keyPressed q = s.keyPressed q := rfl
@[simp] theorem State.clearDisplay_readByte (q : Nat) : (s.clearDisplay).readByte q = s.readByte q := rfl

/-! takeFault -/

@[simp] theorem State.takeFault_x (r : FaultRecord) : (s.takeFault r).x = s.x := rfl
@[simp] theorem State.takeFault_I (r : FaultRecord) : (s.takeFault r).I = s.I := rfl
@[simp] theorem State.takeFault_pc (r : FaultRecord) : (s.takeFault r).pc = r.addr := rfl
@[simp] theorem State.takeFault_sp (r : FaultRecord) : (s.takeFault r).sp = s.sp := rfl
@[simp] theorem State.takeFault_stack (r : FaultRecord) : (s.takeFault r).stack = s.stack := rfl
@[simp] theorem State.takeFault_DT (r : FaultRecord) : (s.takeFault r).DT = s.DT := rfl
@[simp] theorem State.takeFault_ST (r : FaultRecord) : (s.takeFault r).ST = s.ST := rfl
@[simp] theorem State.takeFault_fb (r : FaultRecord) : (s.takeFault r).fb = s.fb := rfl
@[simp] theorem State.takeFault_keys (r : FaultRecord) : (s.takeFault r).keys = s.keys := rfl
@[simp] theorem State.takeFault_mem (r : FaultRecord) : (s.takeFault r).mem = s.mem := rfl
@[simp] theorem State.takeFault_fault (r : FaultRecord) : (s.takeFault r).fault = some r := rfl
@[simp] theorem State.takeFault_params (r : FaultRecord) : (s.takeFault r).params = s.params := rfl
@[simp] theorem State.takeFault_draws (r : FaultRecord) : (s.takeFault r).draws = s.draws := rfl
@[simp] theorem State.takeFault_readReg (r : FaultRecord) (q : RegIdx) : (s.takeFault r).readReg q = s.readReg q := rfl
@[simp] theorem State.takeFault_keyPressed (r : FaultRecord) (q : BitVec 4) : (s.takeFault r).keyPressed q = s.keyPressed q := rfl
@[simp] theorem State.takeFault_pixel (r : FaultRecord) (q : Nat) : (s.takeFault r).pixel q = s.pixel q := rfl
@[simp] theorem State.takeFault_readByte (r : FaultRecord) (q : Nat) : (s.takeFault r).readByte q = s.readByte q := rfl

/-! drawRandom -/

@[simp] theorem State.drawRandom_x : (s.drawRandom.2).x = s.x := rfl
@[simp] theorem State.drawRandom_I : (s.drawRandom.2).I = s.I := rfl
@[simp] theorem State.drawRandom_pc : (s.drawRandom.2).pc = s.pc := rfl
@[simp] theorem State.drawRandom_sp : (s.drawRandom.2).sp = s.sp := rfl
@[simp] theorem State.drawRandom_stack : (s.drawRandom.2).stack = s.stack := rfl
@[simp] theorem State.drawRandom_DT : (s.drawRandom.2).DT = s.DT := rfl
@[simp] theorem State.drawRandom_ST : (s.drawRandom.2).ST = s.ST := rfl
@[simp] theorem State.drawRandom_fb : (s.drawRandom.2).fb = s.fb := rfl
@[simp] theorem State.drawRandom_keys : (s.drawRandom.2).keys = s.keys := rfl
@[simp] theorem State.drawRandom_mem : (s.drawRandom.2).mem = s.mem := rfl
@[simp] theorem State.drawRandom_fault : (s.drawRandom.2).fault = s.fault := rfl
@[simp] theorem State.drawRandom_params : (s.drawRandom.2).params = s.params := rfl
@[simp] theorem State.drawRandom_draws : (s.drawRandom.2).draws = s.draws + 1 := rfl
@[simp] theorem State.drawRandom_readReg (q : RegIdx) : (s.drawRandom.2).readReg q = s.readReg q := rfl
@[simp] theorem State.drawRandom_keyPressed (q : BitVec 4) : (s.drawRandom.2).keyPressed q = s.keyPressed q := rfl
@[simp] theorem State.drawRandom_pixel (q : Nat) : (s.drawRandom.2).pixel q = s.pixel q := rfl
@[simp] theorem State.drawRandom_readByte (q : Nat) : (s.drawRandom.2).readByte q = s.readByte q := rfl

end Sys2Proof.Machine
end

