-- ==== Sys2Proof/Laws/Memory.lean ====
section
/-! SUPPORT. The laws of memory: a read after a write, and the canonical form every memory operation keeps. -/

namespace Sys2Proof.Machine

/-- A store changes the byte at its address and no other; the memory need not be canonical. -/
theorem Memory.read_write_of_sorted (base : Nat → Byte) (m : Memory) (a b : Nat) (v : Byte)
    (hm : List.Pairwise (fun c d => c.1 < d.1) m) :
    Memory.read base (Memory.write base m a v) b = if b = a then v else Memory.read base m b := by
  induction m with
  | nil =>
    unfold Memory.write
    split
    · next h => subst h; simp only [Memory.read]; split <;> simp_all
    · simp only [Memory.read, eq_comm]
  | cons c rest ih =>
    obtain ⟨k, w⟩ := c
    have hrest := (List.pairwise_cons.mp hm).2
    have hlow := (List.pairwise_cons.mp hm).1
    have habsent : ∀ (l : Memory) (e : Nat), (∀ d ∈ l, e < d.1) → Memory.read base l e = base e := by
      intro l e hl
      induction l with
      | nil => rfl
      | cons d l ihl =>
        have hd := hl d List.mem_cons_self
        simp only [Memory.read]
        rw [if_neg (by omega)]
        exact ihl fun x hx => hl x (List.mem_cons_of_mem _ hx)
    unfold Memory.write
    split
    · next hlt =>
      have ha : Memory.read base ((k, w) :: rest) a = base a :=
        habsent _ a fun d hd => by
          rcases List.mem_cons.mp hd with rfl | hd
          · exact hlt
          · exact Nat.lt_trans hlt (hlow d hd)
      split
      · next hv => by_cases hb : b = a <;> simp_all
      · rw [Memory.read]; simp only [eq_comm]
    · next hge =>
      split
      · next hak =>
        subst hak
        split
        · next hv =>
          by_cases hb : b = a
          · subst hb; rw [if_pos rfl, hv]; exact habsent rest b hlow
          · rw [if_neg hb, Memory.read, if_neg (Ne.symm hb)]
        · simp only [Memory.read]
          by_cases hb : b = a
          · simp [hb]
          · simp [hb, Ne.symm hb]
      · next hne =>
        simp only [Memory.read, ih hrest]
        by_cases hk : k = b
        · subst hk; simp [Ne.symm hne]
        · simp [hk]

/-- An address of the list after a store is one of the list before it or the stored one. -/
theorem Memory.mem_write {base : Nat → Byte} {m : Memory} {a : Nat} {v : Byte} {c : Host.Cell}
    (hc : c ∈ Memory.write base m a v) : c ∈ m ∨ (c = (a, v) ∧ v ≠ base a) := by
  induction m with
  | nil =>
    unfold Memory.write at hc
    split at hc
    · simp at hc
    · next h => exact .inr ⟨by simpa using hc, h⟩
  | cons d rest ih =>
    obtain ⟨k, w⟩ := d
    unfold Memory.write at hc
    split at hc
    · split at hc
      · exact .inl hc
      · next h =>
        rcases List.mem_cons.mp hc with rfl | hc
        · exact .inr ⟨rfl, h⟩
        · exact .inl hc
    · split at hc
      · split at hc
        · exact .inl (List.mem_cons_of_mem _ hc)
        · next hak h =>
          rcases List.mem_cons.mp hc with rfl | hc
          · exact .inr ⟨rfl, h⟩
          · exact .inl (List.mem_cons_of_mem _ hc)
      · rcases List.mem_cons.mp hc with rfl | hc
        · exact .inl List.mem_cons_self
        · exact (ih hc).imp (List.mem_cons_of_mem _) id

/-- A store keeps the list strictly rising. -/
theorem Memory.sorted_write (base : Nat → Byte) (m : Memory) (a : Nat) (v : Byte)
    (hm : List.Pairwise (fun c d => c.1 < d.1) m) :
    List.Pairwise (fun c d => c.1 < d.1) (Memory.write base m a v) := by
  induction m with
  | nil => unfold Memory.write; split <;> simp
  | cons d rest ih =>
    obtain ⟨k, w⟩ := d
    obtain ⟨hlow, hrest⟩ := List.pairwise_cons.mp hm
    unfold Memory.write
    split
    · next hlt =>
      split
      · exact hm
      · refine List.pairwise_cons.mpr ⟨fun c hc => ?_, hm⟩
        rcases List.mem_cons.mp hc with rfl | hc
        · exact hlt
        · exact Nat.lt_trans hlt (hlow c hc)
    · next hge =>
      split
      · next hak =>
        subst hak
        split
        · exact hrest
        · exact List.pairwise_cons.mpr ⟨hlow, hrest⟩
      · next hne =>
        refine List.pairwise_cons.mpr ⟨fun c hc => ?_, ih hrest⟩
        rcases Memory.mem_write hc with hc | ⟨rfl, -⟩
        · exact hlow c hc
        · change k < a; omega

/-- A store inside the address space keeps the canonical form. -/
theorem Memory.wf_write (base : Nat → Byte) (m : Memory) (a : Nat) (v : Byte) (ha : a ≤ 0xFFF) (hm : Memory.wf base m) :
    Memory.wf base (Memory.write base m a v) := by
  refine ⟨Memory.sorted_write base m a v hm.1, fun c hc => ?_⟩
  rcases Memory.mem_write hc with hc | ⟨rfl, hv⟩
  · exact hm.2 c hc
  · exact ⟨ha, hv⟩

/-- The empty memory, which is that of `new()`, is canonical. -/
theorem Memory.wf_nil (base : Nat → Byte) : Memory.wf base [] := ⟨List.Pairwise.nil, by simp⟩

/-- A read after a store. -/
theorem State.readByte_writeByte (s : State) (a b : Nat) (v : Byte)
    (hm : List.Pairwise (fun c d => c.1 < d.1) s.mem) :
    (s.writeByte a v).readByte b = if b = a then v else s.readByte b :=
  Memory.read_write_of_sorted _ _ _ _ _ hm

/-- What MemWrite can answer. -/
theorem State.memWrite_cases (s : State) (ea : Nat) (v : Byte) :
    (ea ≤ 0xFFF ∧ s.memWrite ea v = .ok (s.writeByte ea v)) ∨ (0xFFF < ea ∧ s.memWrite ea v = .error ea) := by
  unfold State.memWrite
  by_cases h : ea ≤ 0xFFF
  · exact .inl ⟨h, if_pos h⟩
  · exact .inr ⟨by omega, if_neg h⟩

/-- What MemRead can answer. -/
theorem State.memRead_cases (s : State) (ea : Nat) :
    (ea ≤ 0xFFF ∧ s.memRead ea = .ok (s.readByte ea)) ∨ (0xFFF < ea ∧ s.memRead ea = .error ea) := by
  unfold State.memRead
  by_cases h : ea ≤ 0xFFF
  · exact .inl ⟨h, if_pos h⟩
  · exact .inr ⟨by omega, if_neg h⟩

end Sys2Proof.Machine
end

