-- ==== Sys2Proof/Laws/Ops.lean ====
section
/-! SUPPORT. What each shared operation can do, said once: registers, keys, pixels, stack, block stores and loads, the
sprite loops and the key scan. -/

namespace Sys2Proof.Machine

/-! Registers, keys and pixels -/

/-- A register write changes that register and no other. -/
theorem State.readReg_writeReg (s : State) (r q : RegIdx) (v : Byte) :
    (s.writeReg r v).readReg q = if q = r then v else s.readReg q := by
  simp [State.readReg, State.writeReg, Vector.getElem_set, BitVec.toNat_inj, eq_comm]

/-- A skip writes no register (R180). -/
@[simp] theorem State.readReg_skipIf (s : State) (c : Bool) (q : RegIdx) : (s.skipIf c).readReg q = s.readReg q := by
  cases c <;> rfl

/-- The pc after a conditional skip (R180). -/
theorem State.skipIf_pc (s : State) (c : Bool) : (s.skipIf c).pc = if c then s.pc + 2#16 else s.pc := by
  cases c <;> rfl

/-- A skip changes the pc alone. -/
theorem State.skipIf_eq (s : State) (c : Bool) : s.skipIf c = s.setPc (if c then s.pc + 2#16 else s.pc) := by
  cases c <;> rfl

/-- A key write changes that key and no other. -/
theorem State.keyPressed_writeKey (s : State) (k q : BitVec 4) (b : Bool) :
    (s.writeKey k b).keyPressed q = if q = k then b else s.keyPressed q := by
  simp [State.keyPressed, State.writeKey, Vector.getElem_set, BitVec.toNat_inj, eq_comm]

/-- A pixel write changes that pixel and no other. -/
theorem State.pixel_setPixel (s : State) (j q : Nat) (v : Bool) (hj : j < 2048) :
    (s.setPixel j v).pixel q = if q = j then v else s.pixel q := by
  unfold State.pixel State.setPixel
  by_cases h : q = j
  · subst h; simp [hj]
  · rw [if_neg h]; simp [Ne.symm h]

/-- Every pixel of the cleared display is 0. -/
@[simp] theorem State.pixel_clearDisplay (s : State) (q : Nat) : s.clearDisplay.pixel q = false := by
  unfold State.pixel State.clearDisplay
  by_cases h : q < 2048 <;> simp [h]

/-- A pixel past the framebuffer reads as 0; nothing names one. -/
theorem State.pixel_of_ge (s : State) (j : Nat) (hj : 2048 ≤ j) : s.pixel j = false := by
  simp [State.pixel, hj]

/-! Call stack -/

/-- What a push can answer (R28). -/
theorem State.push_cases (s : State) (v : Word) :
    (∃ (h : s.sp.val < 48) (h' : s.sp.val + 1 < 49),
      s.push v = some { s with stack := s.stack.set s.sp.val v h, sp := ⟨s.sp.val + 1, h'⟩ }) ∨
    (s.sp.val = 48 ∧ s.push v = none) := by
  by_cases h : s.sp.val < 48
  · exact .inl ⟨h, by omega, by simp [State.push, h]⟩
  · exact .inr ⟨by omega, by simp [State.push, h]⟩

/-- What a pop can answer (R28). -/
theorem State.pop_cases (s : State) :
    (s.sp.val = 0 ∧ s.pop = none) ∨
    (∃ (h : s.sp.val - 1 < 48) (h' : s.sp.val - 1 < 49), s.sp.val ≠ 0 ∧
      s.pop = some (s.stack[s.sp.val - 1], { s with sp := ⟨s.sp.val - 1, h'⟩ })) := by
  by_cases h : s.sp.val = 0
  · exact .inl ⟨h, by simp [State.pop, h]⟩
  · exact .inr ⟨by omega, by omega, h, by simp [State.pop, h]⟩

/-! Block transfers -/

/-- What a block store can answer: all of it lands in memory, which stays canonical if it was, and nothing else changes;
or the first address out of bounds is reported. -/
theorem State.storeBytes_cases (vs : List Byte) (s : State) (ea : Nat) :
    ((vs = [] ∨ ea + vs.length ≤ 0x1000) ∧ ∃ m : Memory, s.storeBytes ea vs = .ok { s with mem := m } ∧
      (List.Pairwise (fun c d => c.1 < d.1) s.mem →
        (Memory.wf (resetByte s.params) s.mem → Memory.wf (resetByte s.params) m) ∧
        ∀ b, Memory.read (resetByte s.params) m b =
          if ea ≤ b ∧ b < ea + vs.length then vs.getD (b - ea) 0 else s.readByte b)) ∨
    (vs ≠ [] ∧ 0x1000 < ea + vs.length ∧ s.storeBytes ea vs = .error (max ea 0x1000)) := by
  induction vs generalizing s ea with
  | nil =>
    refine .inl ⟨.inl rfl, s.mem, rfl, fun _ => ⟨id, fun b => ?_⟩⟩
    rw [if_neg (by simp only [List.length_nil]; omega)]; rfl
  | cons v vs ih =>
    rcases s.memWrite_cases ea v with ⟨hea, hw⟩ | ⟨hea, hw⟩
    · rcases ih (s.writeByte ea v) (ea + 1) with ⟨hfit, m, ho, hm'⟩ | ⟨hne, hlong, ho⟩
      · refine .inl ⟨.inr ?_, m, ?_, fun hm => ?_⟩
        · simp only [List.length_cons]
          rcases hfit with rfl | h
          · simp only [List.length_nil]; omega
          · omega
        · simp only [State.storeBytes, hw]; exact ho
        · obtain ⟨hwf, hr⟩ := hm' (Memory.sorted_write _ _ _ _ hm)
          refine ⟨fun h => hwf (Memory.wf_write _ _ _ _ hea h), fun b => ?_⟩
          have := hr b
          simp only [State.writeByte_params, State.readByte_writeByte _ _ _ _ hm] at this
          rw [this]
          simp only [List.length_cons]
          by_cases h1 : b = ea
          · subst h1; rw [if_neg (by omega), if_pos rfl, if_pos (by omega), Nat.sub_self]; rfl
          · by_cases h2 : ea + 1 ≤ b ∧ b < ea + 1 + vs.length
            · rw [if_pos h2, if_pos (by omega), show b - ea = (b - (ea + 1)) + 1 by omega, List.getD_cons_succ]
            · rw [if_neg h2, if_neg h1, if_neg (by omega)]
      · refine .inr ⟨by simp, by simp only [List.length_cons]; omega, ?_⟩
        simp only [State.storeBytes, hw, ho]
        congr 1; omega
    · refine .inr ⟨by simp, by simp only [List.length_cons]; omega, ?_⟩
      simp only [State.storeBytes, hw]
      congr 1; omega

/-- What a block load of the registers k, …, k + n - 1 can answer: each is the byte at I plus its number and nothing else
changes, or the first address out of bounds is reported. -/
theorem State.loadLoop_cases (n : Nat) (s : State) (k : Nat) (hk : k + n ≤ 16) :
    ((n = 0 ∨ s.I.toNat + k + n ≤ 0x1000) ∧ ∃ t : State, s.loadLoop (List.range' k n) = .ok t ∧ t = { s with x := t.x } ∧
      ∀ q : RegIdx, t.readReg q =
        if k ≤ q.toNat ∧ q.toNat < k + n then s.readByte (s.I.toNat + q.toNat) else s.readReg q) ∨
    (n ≠ 0 ∧ 0x1000 < s.I.toNat + k + n ∧
      s.loadLoop (List.range' k n) = .error (max (s.I.toNat + k) 0x1000)) := by
  induction n generalizing s k with
  | zero => exact .inl ⟨.inl rfl, s, rfl, rfl, fun q => by rw [if_neg (by omega)]⟩
  | succ n ih =>
    rw [List.range'_succ]
    rcases s.memRead_cases (s.I.toNat + k) with ⟨hea, hw⟩ | ⟨hea, hw⟩
    · have hw' : s.memRead (s.indexAddr k) = .ok (s.readByte (s.I.toNat + k)) := hw
      rcases ih (s.writeReg (BitVec.ofNat 4 k) (s.readByte (s.I.toNat + k))) (k + 1) (by omega) with
        ⟨hfit, t, ho, ht, hr⟩ | ⟨hne, hlong, ho⟩
      · refine .inl ⟨.inr ?_, t, ?_, ?_, fun q => ?_⟩
        · simp only [State.writeReg_I] at hfit
          rcases hfit with rfl | h <;> omega
        · simp only [State.loadLoop, hw', ho]
        · rw [ht]; rfl
        · rw [hr q]
          simp only [State.writeReg_I, State.writeReg_readByte, State.readReg_writeReg]
          have hq := q.isLt
          by_cases h1 : q = BitVec.ofNat 4 k
          · have hqk : q.toNat = k := by rw [h1, BitVec.toNat_ofNat]; omega
            rw [if_neg (by omega), if_pos h1, if_pos (by omega), hqk]
          · have hqk : q.toNat ≠ k := fun h => h1 (by rw [← h]; simp)
            by_cases h2 : k + 1 ≤ q.toNat ∧ q.toNat < k + 1 + n
            · rw [if_pos h2, if_pos (by omega)]
            · rw [if_neg h2, if_neg h1, if_neg (by omega)]
      · simp only [State.writeReg_I] at hlong ho
        refine .inr ⟨by omega, by omega, ?_⟩
        simp only [State.loadLoop, hw', ho]
        congr 1; omega
    · have hw' : s.memRead (s.indexAddr k) = .error (s.I.toNat + k) := hw
      refine .inr ⟨by omega, by omega, ?_⟩
      simp only [State.loadLoop, hw']
      congr 1; omega

/-! The sprite unit -/

/-- A sprite bit changes at most its pixel, which it inverts, and VF, which a collision sets. -/
theorem State.drawBit_spec (s : State) (bit : Bool) (j : Nat) (hj : j < 2048) :
    s.drawBit bit j = { s with fb := (s.drawBit bit j).fb, x := (s.drawBit bit j).x } ∧
    (∀ q, (s.drawBit bit j).pixel q = if q = j then (s.pixel q ^^ bit) else s.pixel q) ∧
    (∀ r, (s.drawBit bit j).readReg r =
      if r = vf ∧ (bit = true ∧ s.pixel j = true) then 0x01#8 else s.readReg r) := by
  unfold State.drawBit
  cases bit
  · simp
  · cases hp : s.pixel j
    · refine ⟨rfl, fun q => ?_, fun r => by simp⟩
      simp only [reduceIte, Bool.false_eq_true]
      rw [State.pixel_setPixel _ _ _ _ hj]
      by_cases h : q = j
      · subst h; simp [hp]
      · simp [h]
    · refine ⟨rfl, fun q => ?_, fun r => ?_⟩
      · simp only [reduceIte, State.writeReg_pixel]
        rw [State.pixel_setPixel _ _ _ _ hj]
        by_cases h : q = j
        · subst h; simp [hp]
        · simp [h]
      · simp only [reduceIte, State.readReg_writeReg, State.setPixel_readReg, and_true]

/-- Does the sprite row `row`, drawn at column cx of framebuffer row y, have a set bit on cell j? Only the columns from
`c` on count. -/
def rowHits (row : Byte) (cx y c j : Nat) : Bool :=
  decide (y * 64 + cx + c ≤ j ∧ j < y * 64 + cx + 8 ∧ j < y * 64 + 64) && row.getLsbD (7 - (j - (y * 64 + cx)))

/-- A sprite row inverts the cells its set bits fall on, sets VF to 1 exactly when one of them was 1, and changes nothing
else. -/
theorem State.drawRow_spec (row : Byte) (cx y : Nat) (hy : y < 32) (n : Nat) (s : State) (c : Nat) (hc : c + n = 8) :
    (s.drawRow row cx y (List.range' c n)) =
      { s with fb := (s.drawRow row cx y (List.range' c n)).fb, x := (s.drawRow row cx y (List.range' c n)).x } ∧
    (∀ j, (s.drawRow row cx y (List.range' c n)).pixel j = (s.pixel j ^^ rowHits row cx y c j)) ∧
    (∀ r, r ≠ vf → (s.drawRow row cx y (List.range' c n)).readReg r = s.readReg r) ∧
    ((∃ j, rowHits row cx y c j = true ∧ s.pixel j = true) →
      (s.drawRow row cx y (List.range' c n)).readReg vf = 0x01#8) ∧
    ((¬ ∃ j, rowHits row cx y c j = true ∧ s.pixel j = true) →
      (s.drawRow row cx y (List.range' c n)).readReg vf = s.readReg vf) := by
  induction n generalizing s c with
  | zero =>
    have hno : ∀ j, rowHits row cx y c j = false := fun j => by
      unfold rowHits; simp only [Bool.and_eq_false_iff, decide_eq_false_iff_not]; left; omega
    refine ⟨rfl, fun j => by simp [State.drawRow, hno], fun _ _ => rfl, ?_, fun _ => rfl⟩
    rintro ⟨j, hj, -⟩; simp [hno] at hj
  | succ n ih =>
    rw [List.range'_succ]
    unfold State.drawRow
    by_cases hedge : cx + c ≥ 64
    · have hno : ∀ j, rowHits row cx y c j = false := fun j => by
        unfold rowHits; simp only [Bool.and_eq_false_iff, decide_eq_false_iff_not]; left; omega
      simp only [if_pos hedge]
      refine ⟨trivial, fun j => by simp [hno], by simp, ?_, by simp⟩
      rintro ⟨j, hj, -⟩; simp [hno] at hj
    · simp only [if_neg hedge]
      obtain ⟨b1, b2, b3⟩ := s.drawBit_spec (row.getLsbD (7 - c)) (y * 64 + (cx + c)) (by omega)
      generalize s.drawBit (row.getLsbD (7 - c)) (y * 64 + (cx + c)) = u at b1 b2 b3
      obtain ⟨i1, i2, i3, i4, i5⟩ := ih u (c + 1) (by omega)
      have hsplit : ∀ j, rowHits row cx y c j =
          ((decide (j = y * 64 + (cx + c)) && row.getLsbD (7 - c)) || rowHits row cx y (c + 1) j) := fun j => by
        unfold rowHits
        by_cases h : j = y * 64 + (cx + c)
        · subst h
          rw [show y * 64 + (cx + c) - (y * 64 + cx) = c by omega]
          have h1 : (y * 64 + cx + c ≤ y * 64 + (cx + c) ∧ y * 64 + (cx + c) < y * 64 + cx + 8 ∧
            y * 64 + (cx + c) < y * 64 + 64) := by omega
          simp [h1]
        · have : (y * 64 + cx + c ≤ j ∧ j < y * 64 + cx + 8 ∧ j < y * 64 + 64) ↔
              (y * 64 + cx + (c + 1) ≤ j ∧ j < y * 64 + cx + 8 ∧ j < y * 64 + 64) := by omega
          simp [h, this]
      have hhere : rowHits row cx y (c + 1) (y * 64 + (cx + c)) = false := by
        unfold rowHits; simp only [Bool.and_eq_false_iff, decide_eq_false_iff_not]; left; omega
      have hpix : ∀ j, u.pixel j = (s.pixel j ^^ (decide (j = y * 64 + (cx + c)) && row.getLsbD (7 - c))) := fun j => by
        rw [b2 j]; by_cases h : j = y * 64 + (cx + c) <;> simp [h]
      refine ⟨?_, fun j => ?_, fun r hr => ?_, fun hhit => ?_, fun hno => ?_⟩
      · rw [i1]; conv_rhs => rw [b1]
        rw [b1]
      · rw [i2 j, hpix j, hsplit j]
        by_cases h : j = y * 64 + (cx + c)
        · subst h; simp [hhere]
        · simp [h]
      · rw [i3 r hr, b3 r, if_neg (fun h => hr h.1)]
      · obtain ⟨j, hj, hp⟩ := hhit
        rw [hsplit j] at hj
        by_cases hlater : rowHits row cx y (c + 1) j = true
        · refine i4 ⟨j, hlater, ?_⟩
          have : j ≠ y * 64 + (cx + c) := fun h => by rw [h, hhere] at hlater; simp at hlater
          rw [hpix j]; simp [this, hp]
        · simp only [Bool.or_eq_true, Bool.and_eq_true, decide_eq_true_eq, hlater, Bool.false_eq_true,
            or_false] at hj
          obtain ⟨rfl, hbit⟩ := hj
          have hu : u.readReg vf = 0x01#8 := by rw [b3 vf, if_pos ⟨rfl, hbit, hp⟩]
          by_cases hmore : ∃ j, rowHits row cx y (c + 1) j = true ∧ u.pixel j = true
          · exact i4 hmore
          · rw [i5 hmore, hu]
      · have hno1 : ¬ ∃ j, rowHits row cx y (c + 1) j = true ∧ u.pixel j = true := by
          rintro ⟨j, hj, hp⟩
          refine hno ⟨j, by rw [hsplit j, hj, Bool.or_true], ?_⟩
          have : j ≠ y * 64 + (cx + c) := fun h => by rw [h, hhere] at hj; simp at hj
          rw [hpix j] at hp; simpa [this] using hp
        rw [i5 hno1, b3 vf, if_neg]
        rintro ⟨-, hbit, hp⟩
        exact hno ⟨_, by rw [hsplit]; simp [hbit], hp⟩

/-- Does a sprite at (cx, cy) whose rows lie in the memory of `s` from I on have a set bit on cell j? Only the rows from r
to r + n - 1 count. -/
def State.spriteHits (s : State) (cx cy r n j : Nat) : Bool :=
  decide (cy + r ≤ j / 64 ∧ j / 64 < cy + r + n ∧ j / 64 < 32) &&
    rowHits (s.readByte (s.I.toNat + (j / 64 - cy))) cx (j / 64) 0 j

/-- What drawing the rows r to r + n - 1 can answer: the cells the sprite hits are inverted, VF is set exactly on a
collision and nothing else changes; or the address of the first row on screen that lies out of bounds is reported. -/
theorem State.drawRows_cases (cx cy n : Nat) (s : State) (r : Nat) :
    ((∀ k, r ≤ k → k < r + n → cy + k < 32 → s.I.toNat + k ≤ 0xFFF) ∧
      ∃ t : State, s.drawRows cx cy (List.range' r n) = .ok t ∧ t = { s with fb := t.fb, x := t.x } ∧
        (∀ j, t.pixel j = (s.pixel j ^^ s.spriteHits cx cy r n j)) ∧
        (∀ q, q ≠ vf → t.readReg q = s.readReg q) ∧
        ((∃ j, s.spriteHits cx cy r n j = true ∧ s.pixel j = true) → t.readReg vf = 0x01#8) ∧
        ((¬ ∃ j, s.spriteHits cx cy r n j = true ∧ s.pixel j = true) → t.readReg vf = s.readReg vf)) ∨
    (∃ k, r ≤ k ∧ k < r + n ∧ cy + k < 32 ∧ 0xFFF < s.I.toNat + k ∧
      (∀ l, r ≤ l → l < k → s.I.toNat + l ≤ 0xFFF) ∧
      s.drawRows cx cy (List.range' r n) = .error (s.I.toNat + k)) := by
  induction n generalizing s r with
  | zero =>
    have hno : ∀ j, s.spriteHits cx cy r 0 j = false := fun j => by
      unfold State.spriteHits; simp only [Bool.and_eq_false_iff, decide_eq_false_iff_not]; left; omega
    exact .inl ⟨fun k h1 h2 => by omega, s, rfl, rfl, by simp [hno], fun _ _ => rfl, by simp [hno], fun _ => rfl⟩
  | succ n ih =>
    rw [List.range'_succ]
    unfold State.drawRows
    by_cases hedge : cy + r ≥ 32
    · have hno : ∀ j, s.spriteHits cx cy r (n + 1) j = false := fun j => by
        unfold State.spriteHits; simp only [Bool.and_eq_false_iff, decide_eq_false_iff_not]; left; omega
      rw [if_pos hedge]
      exact .inl ⟨fun k h1 h2 h3 => by omega, s, rfl, rfl, by simp [hno], fun _ _ => rfl, by simp [hno], fun _ => rfl⟩
    · rw [if_neg hedge]
      rcases s.memRead_cases (s.I.toNat + r) with ⟨hea, hw⟩ | ⟨hea, hw⟩
      · have hw' : s.memRead (s.indexAddr r) = .ok (s.readByte (s.I.toNat + r)) := hw
        simp only [hw']
        obtain ⟨d1, d2, d3, d4, d5⟩ := State.drawRow_spec (s.readByte (s.I.toNat + r)) cx (cy + r) (by omega) 8 s 0 rfl
        rw [← List.range_eq_range'] at d1 d2 d3 d4 d5
        generalize s.drawRow (s.readByte (s.I.toNat + r)) cx (cy + r) (List.range 8) = u at d1 d2 d3 d4 d5
        have hI : u.I = s.I := by rw [d1]
        have hmem : ∀ a, u.readByte a = s.readByte a := fun a => by rw [d1]; rfl
        have hhits : ∀ j, u.spriteHits cx cy (r + 1) n j = s.spriteHits cx cy (r + 1) n j := fun j => by
          unfold State.spriteHits; rw [hI, hmem]
        have hrow : ∀ j, rowHits (s.readByte (s.I.toNat + r)) cx (cy + r) 0 j = true → j / 64 = cy + r := fun j h => by
          unfold rowHits at h; simp only [Bool.and_eq_true, decide_eq_true_eq] at h; omega
        have hsplit : ∀ j, s.spriteHits cx cy r (n + 1) j =
            (rowHits (s.readByte (s.I.toNat + r)) cx (cy + r) 0 j || s.spriteHits cx cy (r + 1) n j) := fun j => by
          by_cases h : j / 64 = cy + r
          · have h0 : s.spriteHits cx cy (r + 1) n j = false := by
              unfold State.spriteHits; simp only [Bool.and_eq_false_iff, decide_eq_false_iff_not]; left; omega
            have h1 : (cy + r ≤ j / 64 ∧ j / 64 < cy + r + (n + 1) ∧ j / 64 < 32) := by omega
            rw [h0, Bool.or_false, State.spriteHits, decide_eq_true h1, Bool.true_and, h, show cy + r - cy = r by omega]
          · have h0 : rowHits (s.readByte (s.I.toNat + r)) cx (cy + r) 0 j = false := by
              cases hh : rowHits (s.readByte (s.I.toNat + r)) cx (cy + r) 0 j
              · rfl
              · exact absurd (hrow j hh) h
            have h1 : (cy + r ≤ j / 64 ∧ j / 64 < cy + r + (n + 1) ∧ j / 64 < 32) ↔
                (cy + (r + 1) ≤ j / 64 ∧ j / 64 < cy + (r + 1) + n ∧ j / 64 < 32) := by omega
            rw [h0, Bool.false_or]; unfold State.spriteHits; simp only [h1]
        have hdisj : ∀ j, rowHits (s.readByte (s.I.toNat + r)) cx (cy + r) 0 j = true →
            s.spriteHits cx cy (r + 1) n j = false := fun j h => by
          have := hrow j h
          unfold State.spriteHits; simp only [Bool.and_eq_false_iff, decide_eq_false_iff_not]; left; omega
        rcases ih u (r + 1) with ⟨hb, t, ho, i1, i2, i3, i4, i5⟩ | ⟨k, hk1, hk2, hk3, hk4, hk5, ho⟩
        · simp only [hhits] at i2 i4 i5
          refine .inl ⟨fun k h1 h2 h3 => ?_, t, ho, ?_, fun j => ?_, fun q hq => ?_, fun hhit => ?_, fun hno => ?_⟩
          · by_cases hkr : k = r
            · subst hkr; exact hea
            · have := hb k (by omega) (by omega) h3; rwa [hI] at this
          · rw [i1]; conv_rhs => rw [d1]
            rw [d1]
          · rw [i2 j, d2 j, hsplit j]
            cases h : rowHits (s.readByte (s.I.toNat + r)) cx (cy + r) 0 j
            · simp
            · simp [hdisj j h]
          · rw [i3 q hq, d3 q hq]
          · obtain ⟨j, hj, hp⟩ := hhit
            rw [hsplit j] at hj
            by_cases hlater : ∃ j, s.spriteHits cx cy (r + 1) n j = true ∧ u.pixel j = true
            · exact i4 hlater
            · rw [i5 hlater]
              refine d4 ⟨j, ?_, hp⟩
              cases h : rowHits (s.readByte (s.I.toNat + r)) cx (cy + r) 0 j
              · rw [h, Bool.false_or] at hj
                exact absurd ⟨j, hj, by rw [d2 j, h, hp]; rfl⟩ hlater
              · rfl
          · have h1 : ¬ ∃ j, rowHits (s.readByte (s.I.toNat + r)) cx (cy + r) 0 j = true ∧ s.pixel j = true := by
              rintro ⟨j, hj, hp⟩; exact hno ⟨j, by rw [hsplit j, hj, Bool.true_or], hp⟩
            have h2 : ¬ ∃ j, s.spriteHits cx cy (r + 1) n j = true ∧ u.pixel j = true := by
              rintro ⟨j, hj, hp⟩
              have h0 : rowHits (s.readByte (s.I.toNat + r)) cx (cy + r) 0 j = false := by
                cases hh : rowHits (s.readByte (s.I.toNat + r)) cx (cy + r) 0 j
                · rfl
                · rw [hdisj j hh] at hj; simp at hj
              rw [d2 j, h0, Bool.xor_false] at hp
              exact hno ⟨j, by rw [hsplit j, hj, Bool.or_true], hp⟩
            rw [i5 h2, d5 h1]
        · rw [hI] at hk4 hk5 ho
          refine .inr ⟨k, by omega, by omega, hk3, hk4, fun l h1 h2 => ?_, ho⟩
          by_cases hlr : l = r
          · subst hlr; exact hea
          · exact hk5 l (by omega) h2
      · have hw' : s.memRead (s.indexAddr r) = .error (s.I.toNat + r) := hw
        exact .inr ⟨r, by omega, by omega, by omega, hea, fun l h1 h2 => by omega, by simp only [hw']⟩

/-! The key scan -/

/-- What the scan of the keys in ascending order can answer: the lowest pressed key, or that none is pressed. -/
theorem State.firstPressed_cases (s : State) :
    (∃ k : BitVec 4, s.firstPressed (List.range 16) = some k.toNat ∧ s.keyPressed k = true ∧
      ∀ l : BitVec 4, l.toNat < k.toNat → s.keyPressed l = false) ∨
    (s.firstPressed (List.range 16) = none ∧ ∀ l : BitVec 4, s.keyPressed l = false) := by
  unfold State.firstPressed
  cases h : (List.range 16).find? fun k => s.keyPressed (BitVec.ofNat 4 k) with
  | none =>
    refine .inr ⟨rfl, fun l => ?_⟩
    have := List.find?_eq_none.mp h l.toNat (List.mem_range.mpr l.isLt)
    simpa using this
  | some k =>
    obtain ⟨hk, i, hi, hik, hbefore⟩ := List.find?_eq_some_iff_getElem.mp h
    rw [List.getElem_range] at hik
    subst hik
    have hi' : i < 16 := by simpa using hi
    refine .inl ⟨BitVec.ofNat 4 i, ?_, hk, fun l hl => ?_⟩
    · rw [BitVec.toNat_ofNat]; congr 1; omega
    · rw [BitVec.toNat_ofNat] at hl
      have := hbefore l.toNat (by omega)
      simpa using this

/-! Faults -/

/-- A fault taken inside an instruction is a next state: the record is set, the pc is that of the instruction, and nothing
else differs from the state the instruction started in (R326). -/
theorem State.raise_eq (s : State) (i : Instr) (kind : FaultKind) (d : Option Nat) :
    s.raise i kind d = .next { s with
      pc := s.pc - 2#16, fault := some { kind := kind, addr := s.pc - 2#16, bytes := some i.bytes, dataAddr := d } } := rfl

end Sys2Proof.Machine
end

