-- ==== Sys2Proof/Laws/PerInstr.lean ====
section
/-! SUPPORT. Statements made once per instruction. OpcodeNibble: the word of the instruction carries, in bits 15:12, the
primary nibble the opcode map gives its row (30_encoding.md R85, R86). -/

namespace Sys2Proof.Laws

/-- The "op" column of the opcode map (R86). -/
def primaryNibble : Instr → Nibble
  | .clearScreen _ => 0x0
  | .ret _ => 0x0
  | .noOp _ => 0x0
  | .jump _ => 0x1
  | .call _ => 0x2
  | .skipIfEqualImmediate _ _ => 0x3
  | .skipIfNotEqualImmediate _ _ => 0x4
  | .skipIfRegistersEqual _ _ _ => 0x5
  | .setImmediate _ _ => 0x6
  | .addImmediate _ _ => 0x7
  | .set _ _ => 0x8
  | .or _ _ => 0x8
  | .and _ _ => 0x8
  | .xor _ _ => 0x8
  | .add _ _ => 0x8
  | .subtractAB _ _ => 0x8
  | .subtractBA _ _ => 0x8
  | .shiftRight _ _ => 0x8
  | .shiftLeft _ _ => 0x8
  | .skipIfRegistersNotEqual _ _ _ => 0x9
  | .setIndex _ => 0xA
  | .jumpWithOffset _ => 0xB
  | .random _ _ => 0xC
  | .draw _ _ _ => 0xD
  | .skipIfKeyPressed _ => 0xE
  | .skipIfKeyNotPressed _ => 0xE
  | .readDelay _ => 0xF
  | .getKey _ => 0xF
  | .writeDelay _ => 0xF
  | .writeSound _ => 0xF
  | .addIndex _ => 0xF
  | .setIndexGlyph _ => 0xF
  | .storeBCD _ => 0xF
  | .storeRegisters _ => 0xF
  | .loadRegisters _ => 0xF
  | .unrecognized0 _ => 0x0
  | .unrecognized8 _ => 0x8
  | .unrecognizedE _ => 0xE
  | .unrecognizedF _ => 0xF

/-- Bits 15:12 of the instruction's word are its row's primary nibble. -/
def OpcodeNibble.Statement (i : Instr) : Prop := opcodeOf (encode i) = primaryNibble i

theorem OpcodeNibble.clearScreen (z : Nibble) : OpcodeNibble.Statement (.clearScreen z) := opcodeOf_wordXKK ..
theorem OpcodeNibble.ret (z : Nibble) : OpcodeNibble.Statement (.ret z) := opcodeOf_wordXKK ..
theorem OpcodeNibble.noOp (z : Nibble) : OpcodeNibble.Statement (.noOp z) := opcodeOf_wordXKK ..
theorem OpcodeNibble.jump (nnn : Addr12) : OpcodeNibble.Statement (.jump nnn) := opcodeOf_wordNNN ..
theorem OpcodeNibble.call (nnn : Addr12) : OpcodeNibble.Statement (.call nnn) := opcodeOf_wordNNN ..
theorem OpcodeNibble.skipIfEqualImmediate (ra : RegIdx) (kk : Byte) : OpcodeNibble.Statement (.skipIfEqualImmediate ra kk) := opcodeOf_wordXKK ..
theorem OpcodeNibble.skipIfNotEqualImmediate (ra : RegIdx) (kk : Byte) : OpcodeNibble.Statement (.skipIfNotEqualImmediate ra kk) := opcodeOf_wordXKK ..
theorem OpcodeNibble.skipIfRegistersEqual (ra : RegIdx) (rb : RegIdx) (z : Nibble) : OpcodeNibble.Statement (.skipIfRegistersEqual ra rb z) := opcodeOf_wordXYN ..
theorem OpcodeNibble.setImmediate (ra : RegIdx) (kk : Byte) : OpcodeNibble.Statement (.setImmediate ra kk) := opcodeOf_wordXKK ..
theorem OpcodeNibble.addImmediate (ra : RegIdx) (kk : Byte) : OpcodeNibble.Statement (.addImmediate ra kk) := opcodeOf_wordXKK ..
theorem OpcodeNibble.set (ra : RegIdx) (rb : RegIdx) : OpcodeNibble.Statement (.set ra rb) := opcodeOf_wordXYN ..
theorem OpcodeNibble.or (ra : RegIdx) (rb : RegIdx) : OpcodeNibble.Statement (.or ra rb) := opcodeOf_wordXYN ..
theorem OpcodeNibble.and (ra : RegIdx) (rb : RegIdx) : OpcodeNibble.Statement (.and ra rb) := opcodeOf_wordXYN ..
theorem OpcodeNibble.xor (ra : RegIdx) (rb : RegIdx) : OpcodeNibble.Statement (.xor ra rb) := opcodeOf_wordXYN ..
theorem OpcodeNibble.add (ra : RegIdx) (rb : RegIdx) : OpcodeNibble.Statement (.add ra rb) := opcodeOf_wordXYN ..
theorem OpcodeNibble.subtractAB (ra : RegIdx) (rb : RegIdx) : OpcodeNibble.Statement (.subtractAB ra rb) := opcodeOf_wordXYN ..
theorem OpcodeNibble.subtractBA (ra : RegIdx) (rb : RegIdx) : OpcodeNibble.Statement (.subtractBA ra rb) := opcodeOf_wordXYN ..
theorem OpcodeNibble.shiftRight (ra : RegIdx) (rb : RegIdx) : OpcodeNibble.Statement (.shiftRight ra rb) := opcodeOf_wordXYN ..
theorem OpcodeNibble.shiftLeft (ra : RegIdx) (rb : RegIdx) : OpcodeNibble.Statement (.shiftLeft ra rb) := opcodeOf_wordXYN ..
theorem OpcodeNibble.skipIfRegistersNotEqual (ra : RegIdx) (rb : RegIdx) (z : Nibble) : OpcodeNibble.Statement (.skipIfRegistersNotEqual ra rb z) := opcodeOf_wordXYN ..
theorem OpcodeNibble.setIndex (nnn : Addr12) : OpcodeNibble.Statement (.setIndex nnn) := opcodeOf_wordNNN ..
theorem OpcodeNibble.jumpWithOffset (nnn : Addr12) : OpcodeNibble.Statement (.jumpWithOffset nnn) := opcodeOf_wordNNN ..
theorem OpcodeNibble.random (ra : RegIdx) (kk : Byte) : OpcodeNibble.Statement (.random ra kk) := opcodeOf_wordXKK ..
theorem OpcodeNibble.draw (ra : RegIdx) (rb : RegIdx) (n : Nibble) : OpcodeNibble.Statement (.draw ra rb n) := opcodeOf_wordXYN ..
theorem OpcodeNibble.skipIfKeyPressed (ra : RegIdx) : OpcodeNibble.Statement (.skipIfKeyPressed ra) := opcodeOf_wordXKK ..
theorem OpcodeNibble.skipIfKeyNotPressed (ra : RegIdx) : OpcodeNibble.Statement (.skipIfKeyNotPressed ra) := opcodeOf_wordXKK ..
theorem OpcodeNibble.readDelay (ra : RegIdx) : OpcodeNibble.Statement (.readDelay ra) := opcodeOf_wordXKK ..
theorem OpcodeNibble.getKey (ra : RegIdx) : OpcodeNibble.Statement (.getKey ra) := opcodeOf_wordXKK ..
theorem OpcodeNibble.writeDelay (ra : RegIdx) : OpcodeNibble.Statement (.writeDelay ra) := opcodeOf_wordXKK ..
theorem OpcodeNibble.writeSound (ra : RegIdx) : OpcodeNibble.Statement (.writeSound ra) := opcodeOf_wordXKK ..
theorem OpcodeNibble.addIndex (ra : RegIdx) : OpcodeNibble.Statement (.addIndex ra) := opcodeOf_wordXKK ..
theorem OpcodeNibble.setIndexGlyph (ra : RegIdx) : OpcodeNibble.Statement (.setIndexGlyph ra) := opcodeOf_wordXKK ..
theorem OpcodeNibble.storeBCD (ra : RegIdx) : OpcodeNibble.Statement (.storeBCD ra) := opcodeOf_wordXKK ..
theorem OpcodeNibble.storeRegisters (ra : RegIdx) : OpcodeNibble.Statement (.storeRegisters ra) := opcodeOf_wordXKK ..
theorem OpcodeNibble.loadRegisters (ra : RegIdx) : OpcodeNibble.Statement (.loadRegisters ra) := opcodeOf_wordXKK ..
theorem OpcodeNibble.unrecognized0 (raw : Addr12) : OpcodeNibble.Statement (.unrecognized0 raw) := opcodeOf_wordNNN ..
theorem OpcodeNibble.unrecognized8 (raw : Addr12) : OpcodeNibble.Statement (.unrecognized8 raw) := opcodeOf_wordNNN ..
theorem OpcodeNibble.unrecognizedE (raw : Addr12) : OpcodeNibble.Statement (.unrecognizedE raw) := opcodeOf_wordNNN ..
theorem OpcodeNibble.unrecognizedF (raw : Addr12) : OpcodeNibble.Statement (.unrecognizedF raw) := opcodeOf_wordNNN ..

end Sys2Proof.Laws
end

