-- ==== Sys2Proof/Laws/Step.lean ====
section
/-! SUPPORT. What the fetch and the step can do, said once, and how to show that a part of the state is unchanged. -/

namespace Sys2Proof.Machine

/-- The fetch of a pc in bounds. -/
theorem State.fetch_of_le (s : State) (h : s.pc.toNat ≤ 0x0FFE) : s.fetch = some (s.wordAt s.pc.toNat) := if_pos h

/-- The fetch of a pc out of bounds. -/
theorem State.fetch_of_gt (s : State) (h : 0x0FFE < s.pc.toNat) : s.fetch = none := if_neg (by omega)

/-- What a step that answers a next state did: no fault was set, and either the fetch was out of bounds and its fault was
taken, or the instruction at the pc was executed with the pc past it. -/
theorem step_cases {s t : State} (h : step s = .next t) :
    s.fault = none ∧
    ((0x0FFE < s.pc.toNat ∧ t = s.takeFetchFault) ∨
      (s.pc.toNat ≤ 0x0FFE ∧ exec s.currentInstr s.advancePc = .next t)) := by
  unfold step at h
  split at h
  · cases h
  · next hf =>
    refine ⟨hf, ?_⟩
    rcases Nat.lt_or_ge 0x0FFE s.pc.toNat with hp | hp
    · rw [s.fetch_of_gt hp] at h
      exact .inl ⟨hp, (Host.Outcome.next.inj h).symm⟩
    · rw [s.fetch_of_le hp] at h
      exact .inr ⟨hp, h⟩

/-- A state that differs in no part is unchanged. -/
theorem UnchangedBut.refl (ps : List Part) (s : State) : UnchangedBut ps s s := fun p _ => by
  cases p <;> simp [Part.same]

/-- More parts may change. -/
theorem UnchangedBut.mono {ps qs : List Part} {s t : State} (h : UnchangedBut ps s t) (hsub : ∀ p ∈ ps, p ∈ qs) :
    UnchangedBut qs s t := fun p hp => h p fun hm => hp (hsub p hm)

end Sys2Proof.Machine
end

