-- ==== Sys2Proof/Tests/Slice0.lean ====
section
/-! SUPPORT. The model's own tests: the checks of WellFormed, one word of the spec for each constructor's decoding, one or
two steps an instruction with the expected values of 95_test_vectors.md, and a state that meets the hypotheses of each
statement. -/

namespace Sys2Proof.Tests

open Sys2Proof Sys2Proof.Machine

/-! WellFormed: each of its four checks refuses a term outside its family's residual (30_encoding.md R92). -/

theorem test_wf_refuses_zero_family : (Instr.unrecognized0 0x0E0).wellFormed = false := by decide
theorem test_wf_refuses_eight_family : (Instr.unrecognized8 0x12E).wellFormed = false := by decide
theorem test_wf_refuses_e_family : (Instr.unrecognizedE 0x09E).wellFormed = false := by decide
theorem test_wf_refuses_f_family : (Instr.unrecognizedF 0x065).wellFormed = false := by decide
theorem test_wf_accepts_residuals :
    [Instr.unrecognized0 0x0E1, .unrecognized8 0x12F, .unrecognizedE 0x09F, .unrecognizedF 0x090].all
      Instr.wellFormed = true := by decide

/-! Decoding: for every constructor a word written out from the opcode map (R86 to R91; 95_test_vectors.md L2-A). -/

theorem test_decode_zero_family :
    decode 0b0000101011100000 = .clearScreen 0xA ∧ decode 0b0000111111101110 = .ret 0xF ∧
    decode 0b0000111100000000 = .noOp 0xF ∧ decode 0b0000000011100001 = .unrecognized0 0x0E1 ∧
    decode 0x00FF#16 = .unrecognized0 0x0FF ∧ decode 0x0123#16 = .unrecognized0 0x123 := by decide
theorem test_decode_jumps_and_calls :
    decode 0b0001111111111111 = .jump 0xFFF ∧ decode 0b0010000000000000 = .call 0x000 ∧
    decode 0b1011001100000000 = .jumpWithOffset 0x300 := by decide
theorem test_decode_skips :
    decode 0b0011111100000000 = .skipIfEqualImmediate 0xF 0x00 ∧
    decode 0b0100001000010001 = .skipIfNotEqualImmediate 0x2 0x11 ∧
    decode 0b0101000100101111 = .skipIfRegistersEqual 1 2 0xF ∧
    decode 0b1001101010110111 = .skipIfRegistersNotEqual 0xA 0xB 7 ∧
    decode 0b1110000010011110 = .skipIfKeyPressed 0 ∧ decode 0b1110001110100001 = .skipIfKeyNotPressed 3 ∧
    decode 0b1110000010011111 = .unrecognizedE 0x09F ∧ decode 0xE0A0#16 = .unrecognizedE 0x0A0 := by decide
theorem test_decode_immediates :
    decode 0b0110101001000010 = .setImmediate 0xA 0x42 ∧ decode 0b0111000000000001 = .addImmediate 0 0x01 ∧
    decode 0b1100001100001111 = .random 3 0x0F := by decide
theorem test_decode_eight_family :
    decode 0b1000000100100000 = .set 1 2 ∧ decode 0b1000000100100001 = .or 1 2 ∧
    decode 0b1000000100100010 = .and 1 2 ∧ decode 0b1000000100100011 = .xor 1 2 ∧
    decode 0b1000000100100100 = .add 1 2 ∧ decode 0b1000000100100101 = .subtractAB 1 2 ∧
    decode 0b1000111110010110 = .shiftRight 0xF 9 ∧ decode 0b1000000100100111 = .subtractBA 1 2 ∧
    decode 0b1000000100101110 = .shiftLeft 1 2 ∧ decode 0b1000000100101000 = .unrecognized8 0x128 ∧
    decode 0x812F#16 = .unrecognized8 0x12F := by decide
theorem test_decode_index_and_draw :
    decode 0b1010001011110000 = .setIndex 0x2F0 ∧ decode 0b1101000000010101 = .draw 0 1 5 ∧
    decode 0b1111001000011110 = .addIndex 2 ∧ decode 0b1111010000101001 = .setIndexGlyph 4 ∧
    decode 0b1111010100110011 = .storeBCD 5 ∧ decode 0b1111001101010101 = .storeRegisters 3 ∧
    decode 0b1111000101100101 = .loadRegisters 1 := by decide
theorem test_decode_timers_and_keys :
    decode 0b1111001100000111 = .readDelay 3 ∧ decode 0b1111001100001010 = .getKey 3 ∧
    decode 0b1111001100010101 = .writeDelay 3 ∧ decode 0b1111001100011000 = .writeSound 3 ∧
    decode 0b1111000010010000 = .unrecognizedF 0x090 ∧ decode 0xFFFF#16 = .unrecognizedF 0xFFF := by decide

/-- The encoder, on words of the assembler table (R96). -/
theorem test_encode :
    encode (.jump 0x208) = 0x1208#16 ∧ encode (.draw 1 2 5) = 0xD125#16 ∧ encode (.subtractBA 1 2) = 0x8127#16 ∧
    encode (.skipIfKeyNotPressed 3) = 0xE3A1#16 ∧ encode (.unrecognized8 0x12F) = 0x812F#16 := by decide

/-- The host's numbering of a row's bits (spec/opcode_table.json), and an instruction longer than any. -/
theorem test_decodeTableWord :
    decodeTableWord 16 0x00EE = some (.ret 0) ∧ decodeTableWord 16 0x6A42 = some (.setImmediate 0xA 0x42) ∧
    decodeTableWord 24 0x00EE = none := by decide

/-! The assembler syntax and its aliases (R96, R97; 95_test_vectors.md L3). -/

theorem test_assemble_core :
    assemble ⟨.skipIfEqualImmediate, [.reg 0, .imm 2 0x05]⟩ = some 0x3005#16 ∧
    assemble ⟨.draw, [.reg 1, .reg 2, .imm 1 5]⟩ = some 0xD125#16 ∧
    assemble ⟨.shiftRight, [.reg 1]⟩ = some 0x8106#16 ∧ assemble ⟨.shiftLeft, [.reg 1, .reg 2]⟩ = some 0x812E#16 ∧
    assemble ⟨.jump, [.imm 4 0x1000]⟩ = none ∧ assemble ⟨.word, [.imm 4 0x00E1]⟩ = some 0x00E1#16 := by decide
theorem test_assemble_aliases :
    assemble ⟨.aLD, [.reg 3, .named .memory]⟩ = some 0xF365#16 ∧
    assemble ⟨.aLD, [.named .memory, .reg 3]⟩ = some 0xF355#16 ∧
    assemble ⟨.aADD, [.named .index, .reg 2]⟩ = some 0xF21E#16 ∧
    assemble ⟨.aJP, [.reg 0, .imm 3 0x300]⟩ = some 0xB300#16 ∧
    assemble ⟨.aSNE, [.reg 1, .reg 2]⟩ = some 0x9120#16 ∧ assemble ⟨.aJP, [.reg 1, .imm 3 0x300]⟩ = none := by decide
theorem test_written_text :
    (written (.skipIfEqualImmediate 0 0x05)).text = "SkipIfEqualImmediate V0, 0x05" ∧
    (written (.jump 0x208)).text = "Jump 0x208" ∧ (written (.draw 1 2 5)).text = "Draw V1, V2, 0x5" := by decide

/-! One step. The instruction stands at 0x200 and the fetch, the advance and the decoder are in play. -/

/-- A machine at 0x200 with I = `i` and the registers of the list. -/
def at200 (i : Word) (regs : List (RegIdx × Byte)) : State :=
  regs.foldl (fun s r => s.writeReg r.1 r.2) { State.reset with pc := 0x200#16, I := i }

/-- `s` with `bytes` from address `a` up. -/
def withMem (s : State) (a : Nat) (bytes : List Byte) : State := s.copyIn a bytes

/-- What `f` sees after one step of the word `w` in `s`; nothing if the step does not answer a next state. -/
def after {α : Type} (s : State) (w : Nat) (f : State → α) : Option α :=
  match step (s.withFetchWord 16 w) with
  | .next t => some (f t)
  | .fault _ => none
  | .refused _ => none

/-- The record of a fault with a data address or none, at 0x200. -/
def faultAt200 (kind : FaultKind) (b0 b1 : Byte) (dataAddr : Option Nat) : Option FaultRecord :=
  some ⟨kind, 0x200, some (b0, b1), dataAddr⟩

/-- Cells `j` to `j + n - 1` of the framebuffer. -/
def cells (s : State) (j n : Nat) : List Bool := (List.range n).map fun k => s.pixel (j + k)

/-- The bytes of memory from `a` up. -/
def bytesAt (s : State) (a n : Nat) : List Byte := (List.range n).map fun k => s.readByte (a + k)

/-- 95_test_vectors.md L2-C. -/
theorem test_clearScreen :
    after ((at200 0 [(vf, 0x33)]).setPixel 0 true |>.setPixel 2047 true) 0x00E0
      (fun t => (t.pixel 0, t.pixel 2047, t.readReg vf, t.pc)) = some (false, false, 0x33, 0x202) := by decide +kernel
/-- L2-C: two entries; the newest is the target and keeps its value. -/
theorem test_return :
    after { at200 0 [] with sp := 2, stack := ((Vector.replicate 48 0).set 0 0x0202).set 1 0x0402 } 0x00EE
      (fun t => (t.pc, t.sp.val, t.stack[1])) = some (0x0402, 1, 0x0402) := by decide
/-- L2-C: Return with the stack empty. -/
theorem test_return_underflow :
    after (at200 0 []) 0x00EE (fun t => (t.pc, t.fault)) =
      some (0x200, faultAt200 .stackUnderflow 0x00 0xEE none) := by decide
/-- L2-C. -/
theorem test_noOp : after (at200 0 []) 0x0000 (fun t => (t.pc, t.fault)) = some (0x202, none) := by decide
/-- L2-C, L2-E, L2-G, L2-J: one word of each Unrecognized row. -/
theorem test_unrecognized :
    [0x0123, 0x8128, 0xE19F, 0xF275].map (fun w => after (at200 0 []) w State.fault) =
      [some (faultAt200 .unrecognizedInstruction 0x01 0x23 none), some (faultAt200 .unrecognizedInstruction 0x81 0x28 none),
       some (faultAt200 .unrecognizedInstruction 0xE1 0x9F none), some (faultAt200 .unrecognizedInstruction 0xF2 0x75 none)] := by decide

/-- L2-D: an odd target is taken as it is. -/
theorem test_jump : after (at200 0 []) 0x1201 (fun t => t.pc) = some 0x201 := by decide
/-- L2-D: the 48th entry. -/
theorem test_call :
    after { at200 0 [] with sp := 47 } 0x2300 (fun t => (t.stack[47], t.sp.val, t.pc)) =
      some (0x0202, 48, 0x300) := by decide
/-- L2-D: the 49th. -/
theorem test_call_overflow :
    after { at200 0 [] with sp := 48 } 0x2300 (fun t => (t.sp.val, t.fault)) =
      some (48, faultAt200 .stackOverflow 0x23 0x00 none) := by decide
/-- L2-D: the sum is not reduced. -/
theorem test_jumpWithOffset : after (at200 0 [(0, 0xFF)]) 0xBFFF (fun t => t.pc) = some 0x10FE := by decide
/-- L2-D: the offset is x[0], not the register that bits 11:8 would name. -/
theorem test_jumpWithOffset_register_zero :
    after (at200 0 [(0, 0x01), (3, 0x55)]) 0xB300 (fun t => t.pc) = some 0x301 := by decide

/-- L2-E. -/
theorem test_skipIfEqualImmediate :
    [0x3210, 0x3211].map (fun w => after (at200 0 [(2, 0x10)]) w State.pc) = [some 0x204, some 0x202] := by decide
theorem test_skipIfNotEqualImmediate :
    [0x4210, 0x4211].map (fun w => after (at200 0 [(2, 0x10)]) w State.pc) = [some 0x202, some 0x204] := by decide
theorem test_skipIfRegistersEqual :
    [after (at200 0 [(1, 7), (2, 7)]) 0x512F State.pc, after (at200 0 [(1, 7), (2, 8)]) 0x5120 State.pc] =
      [some 0x204, some 0x202] := by decide
theorem test_skipIfRegistersNotEqual :
    [after (at200 0 [(1, 7), (2, 7)]) 0x9120 State.pc, after (at200 0 [(1, 7), (2, 8)]) 0x9120 State.pc] =
      [some 0x202, some 0x204] := by decide
/-- L2-E: the low nibble of x[3] selects key 5. -/
theorem test_skipIfKeyPressed :
    [after ((at200 0 [(3, 0x15)]).setKey 5 1) 0xE39E State.pc, after (at200 0 [(3, 0x05)]) 0xE39E State.pc] =
      [some 0x204, some 0x202] := by decide
theorem test_skipIfKeyNotPressed :
    [after ((at200 0 [(3, 0x05)]).setKey 5 1) 0xE3A1 State.pc, after (at200 0 [(3, 0x05)]) 0xE3A1 State.pc] =
      [some 0x202, some 0x204] := by decide
/-- L2-E: a skip to 0x1000 does not fault. -/
theorem test_skip_off_the_end :
    after { at200 0 [] with pc := 0x0FFC } 0x3000 (fun t => (t.pc, t.fault)) = some (0x1000, none) := by decide

/-- L2-F. -/
theorem test_setImmediate : after (at200 0 []) 0x6A42 (fun t => (t.readReg 0xA, t.pc)) = some (0x42, 0x202) := by decide
/-- L2-F: no carry flag. -/
theorem test_addImmediate :
    after (at200 0 [(0, 0xFF)]) 0x7001 (fun t => (t.readReg 0, t.readReg vf)) = some (0x00, 0x00) := by decide
/-- L2-F: VF as the destination. -/
theorem test_addImmediate_vf : after (at200 0 [(vf, 0x10)]) 0x7F05 (fun t => t.readReg vf) = some 0x15 := by decide
/-- L2-F: an immediate of 0 gives 0, whatever the draw. -/
theorem test_random_masks : after (at200 0 [(3, 0x55)]) 0xC300 (fun t => t.draws) = some 1 := by decide

/-- L2-G: VF is 0xAA before, and stays. -/
theorem test_set :
    after (at200 0 [(1, 0x12), (2, 0x34), (vf, 0xAA)]) 0x8120 (fun t => (t.readReg 1, t.readReg vf)) =
      some (0x34, 0xAA) := by decide
theorem test_or :
    after (at200 0 [(1, 0xF0), (2, 0x0F), (vf, 0xAA)]) 0x8121 (fun t => (t.readReg 1, t.readReg vf)) =
      some (0xFF, 0xAA) := by decide
theorem test_and :
    after (at200 0 [(1, 0xF3), (2, 0x3F), (vf, 0xAA)]) 0x8122 (fun t => (t.readReg 1, t.readReg vf)) =
      some (0x33, 0xAA) := by decide
theorem test_xor :
    after (at200 0 [(1, 0xFF), (2, 0x0F), (vf, 0xAA)]) 0x8123 (fun t => (t.readReg 1, t.readReg vf)) =
      some (0xF0, 0xAA) := by decide
/-- L2-G: the maximum sum, and 255 exactly. -/
theorem test_add :
    [after (at200 0 [(1, 0xFF), (2, 0xFF)]) 0x8124 (fun t => (t.readReg 1, t.readReg vf)),
     after (at200 0 [(1, 0x80), (2, 0x7F)]) 0x8124 (fun t => (t.readReg 1, t.readReg vf))] =
      [some (0xFE, 1), some (0xFF, 0)] := by decide
/-- L2-G: VF as an operand, and as the destination. -/
theorem test_add_vf :
    [after (at200 0 [(1, 0x10), (vf, 0x05)]) 0x81F4 (fun t => (t.readReg 1, t.readReg vf)),
     after (at200 0 [(2, 0x60), (vf, 0xAA)]) 0x8F24 (fun t => (t.readReg 2, t.readReg vf))] =
      [some (0x15, 0), some (0x60, 1)] := by decide
/-- L1-4 and L2-G: the source's two vectors and equal operands. -/
theorem test_subtractAB :
    [(5, 3), (3, 5), (7, 7)].map (fun p => after (at200 0 [(1, p.1), (2, p.2)]) 0x8125
      (fun t => (t.readReg 1, t.readReg vf))) = [some (2, 1), some (0xFE, 0), some (0, 1)] := by decide
theorem test_subtractBA :
    [(3, 5), (5, 3), (9, 9)].map (fun p => after (at200 0 [(1, p.1), (2, p.2)]) 0x8127
      (fun t => (t.readReg 1, t.readReg vf))) = [some (2, 1), some (0xFE, 0), some (0, 1)] := by decide
/-- L1-5 and L2-G: rB is unused. -/
theorem test_shiftRight :
    after (at200 0 [(1, 0x03), (9, 0x80)]) 0x8196 (fun t => (t.readReg 1, t.readReg vf)) = some (0x01, 1) := by decide
theorem test_shiftLeft :
    after (at200 0 [(1, 0x81)]) 0x810E (fun t => (t.readReg 1, t.readReg vf)) = some (0x02, 1) := by decide
/-- L2-G: rA = 0xF, the flag first (D12). -/
theorem test_shifts_vf :
    [after (at200 0 [(vf, 0x03)]) 0x8F06 (fun t => t.readReg vf),
     after (at200 0 [(vf, 0x80)]) 0x8F0E (fun t => t.readReg vf)] = [some 0x00, some 0x02] := by decide

/-- L2-H. -/
theorem test_setIndex : after (at200 0x1008 []) 0xA123 (fun t => t.I) = some 0x0123 := by decide
/-- L2-H: past 0xFFF, not past it, and past 0xFFFF. -/
theorem test_addIndex :
    [(0x0FF8, 0x10, 0), (0x0FFE, 0x01, 0x77), (0xFFF0, 0x20, 0)].map
      (fun p => after (at200 p.1 [(2, p.2.1), (vf, p.2.2)]) 0xF21E (fun t => (t.I, t.readReg vf))) =
      [some (0x1008, 1), some (0x0FFF, 0x77), some (0x0010, 1)] := by decide
/-- L2-H. -/
theorem test_setIndexGlyph : after (at200 0 [(4, 0x3C)]) 0xF429 (fun t => t.I) = some 0x008C := by decide
/-- L1-9, and the last three bytes of memory. -/
theorem test_storeBCD :
    [after (at200 0x300 [(5, 234)]) 0xF533 (fun t => (bytesAt t 0x300 3, t.I)),
     after (at200 0x0FFD [(5, 123)]) 0xF533 (fun t => (bytesAt t 0xFFD 3, t.I))] =
      [some ([2, 3, 4], 0x300), some ([1, 2, 3], 0xFFD)] := by decide
/-- L2-H: the first digit is not kept when the third is out of bounds. -/
theorem test_storeBCD_out_of_bounds :
    after (at200 0x0FFE [(5, 123)]) 0xF533 (fun t => (t.readByte 0xFFE, t.fault)) =
      some (0, faultAt200 .memoryOutOfBounds 0xF5 0x33 (some 0x1000)) := by decide
/-- L1-10. -/
theorem test_storeRegisters :
    after (at200 0x300 [(0, 0x0A), (1, 0x0B), (2, 0x0C), (3, 0x0D), (4, 0x0E)]) 0xF355
      (fun t => (bytesAt t 0x300 5, t.I)) = some ([0x0A, 0x0B, 0x0C, 0x0D, 0x00], 0x300) := by decide
/-- L2-H: under LOAD_COUNT_FIELD = A, and under B. -/
theorem test_loadRegisters :
    [LoadCountField.a, .b].map (fun f =>
      after (withMem { at200 0x300 [] with params := { defaultParams with loadCountField := f },
                                           x := Vector.replicate 16 0xEE }
        0x300 [0x00, 0x11, 0x22, 0x33, 0x44, 0x55, 0x66, 0x77]) 0xF165 (fun t => t.x.toList.take 8)) =
      [some [0x00, 0x11, 0xEE, 0xEE, 0xEE, 0xEE, 0xEE, 0xEE],
       some [0x00, 0x11, 0x22, 0x33, 0x44, 0x55, 0x66, 0xEE]] := by decide
/-- L2-H: no register changes. -/
theorem test_loadRegisters_out_of_bounds :
    after (at200 0x0FFE [(0, 0x77)]) 0xF265 (fun t => (t.readReg 0, t.fault)) =
      some (0x77, faultAt200 .memoryOutOfBounds 0xF2 0x65 (some 0x1000)) := by decide

/-- L1-7 and L2-I: clipped at column 63, and bit 7 leftmost. -/
theorem test_draw :
    [after (withMem (at200 0x300 [(0, 60)]) 0x300 [0xFF]) 0xD011 (fun t => (cells t 60 8, t.readReg vf)),
     after (withMem (at200 0x300 []) 0x300 [0xA5]) 0xD011 (fun t => (cells t 0 8, t.readReg vf))] =
      [some ([true, true, true, true, false, false, false, false], 0),
       some ([true, false, true, false, false, true, false, true], 0)] := by decide +kernel
/-- L2-I: a collision on row 0 survives row 1; rA = 0xF is read before the reset. -/
theorem test_draw_collision :
    [after (withMem ((at200 0x300 []).setPixel 0 true) 0x300 [0x80, 0x80]) 0xD012
       (fun t => ([t.pixel 0, t.pixel 64], t.readReg vf)),
     after (withMem (at200 0x300 [(vf, 5)]) 0x300 [0x80]) 0xDF11 (fun t => ([t.pixel 5, t.pixel 0], t.readReg vf))] =
      [some ([false, true], 1), some ([true, false], 0)] := by decide +kernel

/-- L2-J. -/
theorem test_readDelay : after ((at200 0 []).setDT 0x3C) 0xF307 (fun t => t.readReg 3) = some 0x3C := by decide
theorem test_writeDelay : after (at200 0 [(3, 0x3C)]) 0xF315 (fun t => (t.DT, t.ST)) = some (0x3C, 0) := by decide
theorem test_writeSound : after (at200 0 [(3, 0x05)]) 0xF318 (fun t => (t.DT, t.ST)) = some (0, 0x05) := by decide
/-- L2-J: no key, and the lowest of two. -/
theorem test_getKey :
    [after (at200 0 [(3, 0x55)]) 0xF30A (fun t => (t.readReg 3, t.pc)),
     after ((at200 0 []).setKey 9 1 |>.setKey 3 0x80) 0xF30A (fun t => (t.readReg 3, t.pc))] =
      [some (0x55, 0x200), some (3, 0x202)] := by decide

/-! Reset, load and the host (L2-J, L2-K) -/

theorem test_reset :
    State.reset.pc = 0x0000 ∧ State.reset.readByte 0x04F = 0 ∧ State.reset.readByte 0x050 = 0xF0 ∧
    State.reset.readByte 0x09F = 0x80 ∧ State.reset.readByte 0x0A0 = 0 ∧ State.reset.memWf := by decide
/-- The first step from reset runs the placed word. -/
theorem test_withFetchWord_at_reset :
    after State.reset 0x6A42 (fun t => (t.readReg 0xA, t.pc)) = some (0x42, 0x0002) := by decide
theorem test_load :
    (match State.reset.load [0x12, 0x00] with
     | .accepted t => some (bytesAt t 0x200 3, t.pc)
     | .rejected _ => none) = some ([0x12, 0x00, 0x00], 0x200) := by decide
theorem test_host_timers :
    ((at200 0 []).setDT 1).decrementDelay.decrementDelay.readTimers = (0, 0) ∧
    ((at200 0 []).setST 1).decrementSound.readTimers = (0, 0) := by decide
theorem test_setKey :
    ((at200 0 []).setKey 4 0x80).keyPressed 4 = true ∧
    (((at200 0 []).setKey 4 0x80).setKey 4 0).keyPressed 4 = false := by decide
/-- L2-B: out of bounds at the fetch, and no step after a fault. -/
theorem test_fetch_out_of_bounds :
    after { at200 0 [] with pc := 0x0FFF } 0 State.fault = some (some ⟨.fetchOutOfBounds, 0x0FFF, none, none⟩) := by decide
theorem test_halted :
    step { at200 0 [] with fault := some ⟨.fetchOutOfBounds, 0x0FFF, none, none⟩ } =
      .fault (.halted ⟨.fetchOutOfBounds, 0x0FFF, none, none⟩) := by rfl
/-- A store to the glyph table and one that undoes it leave the same memory as none. -/
theorem test_memory_canonical :
    ((State.reset.writeByte 0x052 7).writeByte 0x052 0x90).mem = [] ∧
    ((State.reset.writeByte 0x300 7).writeByte 0x200 9).mem = [(0x200, 9), (0x300, 7)] := by decide
/-- The core runs: NoOp at reset, with the pc at 0 (R365). -/
theorem test_core_steps : ∃ t, core.run 1 core.reset = .next t := ⟨_, rfl⟩

/-! Witnesses: for each statement with hypotheses, a state and operands that meet them all together; where a statement has
several clauses, one for each, at a boundary of its range. -/

/-- `at200` with the word `w` at 0x200. -/
def placed (i : Word) (regs : List (RegIdx × Byte)) (w : Nat) : State := (at200 i regs).withFetchWord 16 w

theorem witness_DecodeInvertsEncode :
    [Instr.unrecognized0 0x0E1, .unrecognized8 0xFFF, .unrecognizedE 0x000, .unrecognizedF 0xFFF, .ret 0xF].all
      Instr.wellFormed = true := by decide
theorem witness_IgnoredBitsChangeNothing : { at200 0 [] with sp := 1 }.sp.val ≠ 0 := by decide
theorem witness_StepExecutesTheDecodedInstruction :
    { at200 0 [] with pc := 0x0FFE }.fault = none ∧ { at200 0 [] with pc := 0x0FFE }.pc.toNat ≤ 0x0FFE := by decide
theorem witness_FetchOutOfBoundsFaultsAtTheFetch :
    { at200 0 [] with pc := 0x0FFF }.fault = none ∧ 0x0FFE < { at200 0 [] with pc := 0x0FFF }.pc.toNat := by decide
theorem witness_HaltedMachineHasNoStep :
    { at200 0 [] with fault := faultAt200 .stackOverflow 0x23 0x00 none }.fault =
      some ⟨.stackOverflow, 0x200, some (0x23, 0x00), none⟩ := by decide
theorem witness_EveryUnhaltedStepCompletes : (at200 0 []).fault = none := by decide
/-- A taken skip, a GetKey that stalls, a Return. -/
theorem witness_PcAfterAStep :
    (∃ t, step (placed 0 [] 0x3000) = .next t ∧ t.fault = none) ∧
    (∃ t, step (placed 0 [] 0xF30A) = .next t ∧ t.fault = none) ∧
    (∃ t, step { placed 0 [] 0x00EE with sp := 1 } = .next t ∧ t.fault = none) :=
  ⟨⟨_, rfl, rfl⟩, ⟨_, rfl, rfl⟩, ⟨_, rfl, rfl⟩⟩
/-- An instruction that faults, and a fetch that does. -/
theorem witness_FaultingStepChangesOnlyTheFaultStatus :
    (∃ t r, step (placed 0 [] 0x00EE) = .next t ∧ t.fault = some r ∧ (placed 0 [] 0x00EE).pc.toNat ≤ 0x0FFE) ∧
    (∃ t r, step { at200 0 [] with pc := 0x0FFF } = .next t ∧ t.fault = some r ∧
      0x0FFE < { at200 0 [] with pc := 0x0FFF }.pc.toNat) :=
  ⟨⟨_, _, rfl, rfl, by decide⟩, ⟨_, _, rfl, rfl, by decide⟩⟩
/-- A faulting instruction of each class, and one that does not fault. -/
theorem witness_InstructionsRaiseExactlyTheirFaults :
    (at200 0x0FFE []).fault = none ∧ (∃ t, exec (.storeBCD 0) (at200 0x0FFE []) = .next t) ∧
    (∃ t, exec (.ret 0) (at200 0x0FFE []) = .next t) ∧ (∃ t, exec (.noOp 0) (at200 0x0FFE []) = .next t) :=
  ⟨by decide, ⟨_, rfl⟩, ⟨_, rfl⟩, ⟨_, rfl⟩⟩
/-- A faulting instruction at the boundary of each condition: 48 entries, the byte past 0xFFF, the last row on screen. -/
theorem witness_FaultCondition_boundaries :
    FaultCondition (.call 0x300) { at200 0 [] with sp := 48 } .stackOverflow none ∧
    FaultCondition (.storeBCD 0) (at200 0x0FFE []) .memoryOutOfBounds (some 0x1000) ∧
    FaultCondition (.storeRegisters 0xF) (at200 0x0FF1 []) .memoryOutOfBounds (some 0x1000) ∧
    FaultCondition (.loadRegisters 0) (at200 0x1005 []) .memoryOutOfBounds (some 0x1005) ∧
    FaultCondition (.draw 0 1 5) (at200 0x0FFE [(1, 29)]) .memoryOutOfBounds (some 0x1000) := by
  refine ⟨⟨rfl, rfl, rfl⟩, ?_, ?_, ?_, rfl, 2, by decide, by decide, by decide, by decide, rfl⟩ <;>
    exact ⟨rfl, rfl, by decide⟩

/-- A machine in a subroutine, off the reset state, that meets the invariant. -/
def inSubroutine : State :=
  { placed 0x300 [(3, 0x10)] 0x6305 with sp := 1, stack := (Vector.replicate 48 0).set 0 0x1000 }
theorem inSubroutine_stack : inSubroutine.stack = (Vector.replicate 48 (0 : Word)).set 0 0x1000 := rfl
theorem inSubroutine_fault : inSubroutine.fault = none := by decide
theorem inSubroutine_inv : inSubroutine.Inv := by
  refine ⟨by decide, by decide, ?_, ?_⟩
  · rw [inSubroutine_stack]
    simp [Vector.toList_set, Vector.toList_replicate, List.replicate]
  · rw [inSubroutine_fault]
    intro r h
    cases h
theorem witness_StepKeepsTheInvariant : inSubroutine.Inv ∧ ∃ t, step inSubroutine = .next t :=
  ⟨inSubroutine_inv, _, rfl⟩
theorem witness_HostKeepsTheInvariant :
    inSubroutine.Inv ∧ inSubroutine.fault = none ∧ ∃ t, inSubroutine.load [0x12, 0x00] = .accepted t :=
  ⟨inSubroutine_inv, by decide, _, rfl⟩
theorem witness_ReachableStatesMeetTheInvariant : ∃ s, Reachable defaultParams [0x12, 0x00] s := ⟨_, .launch _ rfl⟩

theorem witness_StepNeverDecrementsTimersNorWritesKeys :
    (∃ t, step (placed 0 [(3, 0x3C)] 0xF315) = .next t ∧ t.DT ≠ (placed 0 [(3, 0x3C)] 0xF315).DT) ∧
    (∃ t, step (placed 0 [(3, 0x3C)] 0xF318) = .next t ∧ t.ST ≠ (placed 0 [(3, 0x3C)] 0xF318).ST) :=
  ⟨⟨_, rfl, by decide⟩, ⟨_, rfl, by decide⟩⟩
theorem witness_OnlyClearScreenAndDrawChangeTheDisplay :
    ∃ t, step (placed 0x200 [] 0xD011) = .next t ∧ ∃ j, t.pixel j ≠ (placed 0x200 [] 0xD011).pixel j :=
  ⟨_, rfl, 0, by decide +kernel⟩
theorem witness_OnlyTheStoresChangeMemory :
    (placed 0x0FFD [(5, 123)] 0xF533).memWf ∧ ∃ t, step (placed 0x0FFD [(5, 123)] 0xF533) = .next t ∧
      t.readByte 0xFFF ≠ (placed 0x0FFD [(5, 123)] 0xF533).readByte 0xFFF :=
  ⟨by decide, _, rfl, by decide⟩
theorem witness_OnlyTheNamedRegistersChange :
    ∃ t, step (placed 0 [(1, 0xFF), (2, 1)] 0x8124) = .next t ∧
      t.readReg vf ≠ (placed 0 [(1, 0xFF), (2, 1)] 0x8124).readReg vf := ⟨_, rfl, by decide⟩
theorem witness_OnlyTheNamedInstructionsChangeStackAndIndex :
    (∃ t, step (placed 0 [] 0x2300) = .next t ∧ t.sp ≠ (placed 0 [] 0x2300).sp ∧
      t.stack ≠ (placed 0 [] 0x2300).stack) ∧
    (∃ t, step (placed 0 [] 0xA2F0) = .next t ∧ t.I ≠ (placed 0 [] 0xA2F0).I) :=
  ⟨⟨_, rfl, by decide, by decide⟩, ⟨_, rfl, by decide⟩⟩
theorem witness_SoundTimerIsNeverRead : ∃ t, step (placed 0 [] 0xF307) = .next t := ⟨_, rfl⟩
/-- With the dead entry right above the stack, which the step pushes over, and with a full stack's last entry live. -/
theorem witness_DeadStackEntriesAreNeverRead :
    (placed 0 [] 0x2300).sp.val ≤ 0 ∧ (∃ t, step (placed 0 [] 0x2300) = .next t) ∧
    inSubroutine.sp.val ≤ 47 ∧ ∃ t, step inSubroutine = .next t := ⟨by decide, ⟨_, rfl⟩, by decide, _, rfl⟩
theorem witness_SelfJumpLeavesTheStateUnchanged :
    (placed 0 [] 0x1200).fault = none ∧ (placed 0 [] 0x1200).pc = (0x200#12).setWidth 16 ∧
    (placed 0 [] 0x1200).pc.toNat ≤ 0x0FFE ∧ (placed 0 [] 0x1200).currentInstr = .jump 0x200 := by decide
theorem witness_PlacedWordIsTheOneExecuted :
    { at200 0 [] with pc := 0x0FFE }.memWf ∧ { at200 0 [] with pc := 0x0FFE }.fault = none ∧
    { at200 0 [] with pc := 0x0FFE }.pc.toNat ≤ 0x0FFE ∧ 16 ≤ 16 ∧ 0xFFFF < 2 ^ 16 := by decide

/-- One entry, and a full stack. -/
theorem witness_ReturnPopsTheStack :
    { at200 0 [] with sp := 1 }.sp.val ≠ 0 ∧ { at200 0 [] with sp := 48 }.sp.val ≠ 0 := by decide
/-- An empty stack, and 47 entries. -/
theorem witness_CallPushesAndJumps :
    (at200 0 []).sp.val < 48 ∧ { at200 0 [] with sp := 47 }.sp.val < 48 := by decide
theorem witness_UnrecognizedWordsTakeTheFault :
    ∀ k ∈ [(0x0#4, Instr.unrecognized0 0x123), (0x8, .unrecognized8 0x123), (0xE, .unrecognizedE 0x123),
      (0xF, .unrecognizedF 0x123)], (k.1 = 0x0#4 ∧ k.2 = .unrecognized0 0x123) ∨
        (k.1 = 0x8#4 ∧ k.2 = .unrecognized8 0x123) ∨ (k.1 = 0xE#4 ∧ k.2 = .unrecognizedE 0x123) ∨
        (k.1 = 0xF#4 ∧ k.2 = .unrecognizedF 0x123) := by decide
theorem witness_SkipsOnAKey : (0xA#4).toNat = ((at200 0 [(3, 0x1A)]).readReg 3).toNat % 16 := by decide
theorem witness_SetAndLogicWriteNoFlag :
    ∀ i ∈ [Instr.set 1 2, .or 1 2, .and 1 2, .xor 1 2], i = .set 1 2 ∨ i = .or 1 2 ∨ i = .and 1 2 ∨ i = .xor 1 2 := by
  decide
/-- Operands of which none is VF; the statements' other clauses take the same operands with rA = 0xF. -/
theorem witness_AddWritesSumThenCarry : (1 : RegIdx) ≠ vf ∧ (0xF : RegIdx) = vf := by decide
theorem witness_SubtractsWriteDifferenceThenNoBorrow :
    (Instr.subtractAB 1 2 = .subtractAB 1 2 ∧ (5 : Byte) = (at200 0 [(1, 5), (2, 3)]).readReg 1 ∧
      (3 : Byte) = (at200 0 [(1, 5), (2, 3)]).readReg 2) ∧
    (Instr.subtractBA 1 2 = .subtractBA 1 2 ∧ (3 : Byte) = (at200 0 [(1, 5), (2, 3)]).readReg 2 ∧
      (5 : Byte) = (at200 0 [(1, 5), (2, 3)]).readReg 1) ∧ (1 : RegIdx) ≠ vf := by decide
theorem witness_ShiftsWriteTheFlagFirst : (1 : RegIdx) ≠ vf ∧ (0xF : RegIdx) = vf := by decide
/-- The last three bytes of memory. -/
theorem witness_StoreBCDStoresThreeDigits :
    (at200 0x0FFD []).memWf ∧ (at200 0x0FFD []).I.toNat + 2 ≤ 0xFFF := by decide
/-- The last sixteen bytes of memory. -/
theorem witness_StoreRegistersStoresUpToRA :
    (at200 0x0FF0 []).memWf ∧ (at200 0x0FF0 []).I.toNat + (0xF : RegIdx).toNat ≤ 0xFFF := by decide
/-- The last bytes of memory, under both values of LOAD_COUNT_FIELD. -/
theorem witness_LoadRegistersLoadsUpToN :
    (at200 0x0FF0 []).I.toNat + lastLoaded (at200 0x0FF0 []).params.loadCountField 0xF ≤ 0xFFF ∧
    (at200 0x0FF9 []).I.toNat + lastLoaded .b 0xF ≤ 0xFFF := by decide
/-- Two rows on screen in the last two bytes of memory, the others below the screen. -/
theorem witness_DrawXorsTheClippedSprite :
    ∀ k, k < (5 : Nibble).toNat → ((at200 0x0FFE [(1, 30)]).readReg 1).toNat % 32 + k < 32 →
      (at200 0x0FFE [(1, 30)]).I.toNat + k ≤ 0xFFF := by decide
/-- A sprite that collides, and one that does not. -/
theorem witness_spriteCollides :
    (placed 0x200 [] 0xD011 |>.setPixel 0 true).spriteCollides 0 0 1 ∧ ¬ (placed 0x200 [] 0xD010).spriteCollides 0 0 0 := by
  refine ⟨⟨0, 0, by decide, by decide, by decide, by decide +kernel⟩, ?_⟩
  rintro ⟨r, c, -, -, h, -⟩
  simp [State.spriteBit] at h
  omega
/-- The lowest of two pressed keys, and none pressed. -/
theorem witness_GetKeyTakesTheLowestKeyOrStalls :
    (((at200 0 []).setKey 9 1).setKey 3 1).keyPressed 3 = true ∧
    (∀ l : BitVec 4, l.toNat < (3 : BitVec 4).toNat → (((at200 0 []).setKey 9 1).setKey 3 1).keyPressed l = false) ∧
    (∀ l : BitVec 4, (at200 0 []).keyPressed l = false) := by decide
theorem witness_LoadPlacesTheProgramOrRejectsIt :
    (at200 0 []).memWf ∧ (∃ bytes : List Byte, bytes.length = 3584 ∧ bytes.length ≤ 3584) ∧
    ∃ bytes : List Byte, bytes.length = 3585 ∧ 3584 < bytes.length := by
  have full (n : Nat) : ∃ bytes : List Byte, bytes.length = n := ⟨List.replicate n 0, List.length_replicate⟩
  obtain ⟨b, hb⟩ := full 3584
  obtain ⟨c, hc⟩ := full 3585
  exact ⟨by decide, ⟨b, hb, by omega⟩, c, hc, by omega⟩

end Sys2Proof.Tests
end

section
/-! The state after `new()` (10_state.md R37): what each accessor reads there. -/

namespace Sys2Proof.Machine

/-- The glyph table sits in 0x050 to 0x09F, byte k of it at 0x050 + k, and every other byte is zero (R37, R51). -/
theorem resetByte_eq_getD (p : Params) (a : Nat) :
    resetByte p a = if 0x050 ≤ a ∧ a ≤ 0x09F then p.glyphTable.toList.getD (a - 0x050) 0 else 0#8 := by
  unfold resetByte
  by_cases h : 0x050 ≤ a ∧ a < 0x050 + 80
  · have hlt : a - 0x050 < p.glyphTable.toList.length := by rw [Vector.length_toList]; omega
    rw [dif_pos h, if_pos (by omega), List.getD_eq_getElem _ _ hlt, Vector.getElem_toList]
  · rw [dif_neg h, if_neg (by omega)]

/-- `new()` lists no byte of memory, so every address reads as its reset byte. -/
@[simp] theorem State.resetWith_readByte (p : Params) (a : Nat) : (State.resetWith p).readByte a = resetByte p a := rfl

@[simp] theorem State.resetWith_readReg (p : Params) (r : RegIdx) : (State.resetWith p).readReg r = 0#8 :=
  Vector.getElem_replicate ..

@[simp] theorem State.resetWith_getElem_stack (p : Params) (j : Fin 48) : (State.resetWith p).stack[j] = 0#16 :=
  Vector.getElem_replicate ..

/-- Every cell is off; a number past the last cell names none and reads as off. -/
@[simp] theorem State.resetWith_pixel (p : Params) (j : Nat) : (State.resetWith p).pixel j = false := by
  have hfb : (State.resetWith p).pixel j = ((Vector.replicate 2048 false)[j]?).getD false := rfl
  rw [hfb, Vector.getElem?_replicate]
  split <;> rfl

/-- Settles O53: memory by the place of the glyph table, registers, stack and framebuffer by what their accessors read
after `new()`; I, sp and the timers are fields that `new()` sets to zero. -/
theorem newZeroesAllButTheGlyphTable : Obligations.NewZeroesAllButTheGlyphTable := by
  intro p
  refine ⟨fun a => ?_, State.resetWith_readReg p, rfl, State.resetWith_getElem_stack p, rfl, rfl, rfl,
    State.resetWith_pixel p⟩
  rw [State.resetWith_readByte, resetByte_eq_getD]

end Sys2Proof.Machine
end

section
/-! The fields of an instruction word, from its two bytes and as bit positions (30_encoding.md R82). -/

namespace Sys2Proof

/-- byte0 is opcode and registerA, byte1 is registerB and imm4. -/
theorem wordOfBytes_eq_wordXYN (b0 b1 : Byte) :
    wordOfBytes b0 b1 =
      wordXYN (b0.extractLsb' 4 4) (b0.extractLsb' 0 4) (b1.extractLsb' 4 4) (b1.extractLsb' 0 4) := by
  apply BitVec.eq_of_toNat_eq
  rw [wordOfBytes_toNat, wordXYN_toNat]
  simp only [BitVec.extractLsb'_toNat, Nat.shiftRight_eq_div_pow]
  omega

/-- A nibble shifted above a byte, as R82 writes addr12. -/
theorem nibble_shiftLeft_or_byte_toNat (x : Nibble) (kk : Byte) :
    (x.setWidth 12 <<< 8 ||| kk.setWidth 12).toNat = x.toNat * 256 + kk.toNat := by
  have hx : (x.setWidth 12 <<< 8).toNat = x.toNat <<< 8 := by
    rw [BitVec.toNat_shiftLeft, BitVec.toNat_setWidth, Nat.shiftLeft_eq, Nat.shiftLeft_eq]; omega
  have hkk : (kk.setWidth 12).toNat = kk.toNat := BitVec.toNat_setWidth_of_le (by decide)
  rw [BitVec.toNat_or, hx, hkk, ← Nat.shiftLeft_add_eq_or_of_lt kk.isLt, Nat.shiftLeft_eq]

/-- addr12 is the low nibble of byte0 followed by byte1. -/
theorem addr12Of_wordOfBytes (b0 b1 : Byte) :
    addr12Of (wordOfBytes b0 b1) = (b0.extractLsb' 0 4).setWidth 12 <<< 8 ||| b1.setWidth 12 := by
  apply BitVec.eq_of_toNat_eq
  rw [addr12Of, field_toNat, wordOfBytes_toNat, nibble_shiftLeft_or_byte_toNat, BitVec.extractLsb'_toNat,
    Nat.shiftRight_zero]
  omega

theorem opcodeOf_toNat (w : Word) : (opcodeOf w).toNat = w.toNat / 4096 := by
  rw [opcodeOf, field_toNat]; omega
theorem registerAOf_toNat (w : Word) : (registerAOf w).toNat = w.toNat / 256 % 16 := field_toNat w 8 4
theorem registerBOf_toNat (w : Word) : (registerBOf w).toNat = w.toNat / 16 % 16 := field_toNat w 4 4
theorem imm4Of_toNat (w : Word) : (imm4Of w).toNat = w.toNat % 16 := by
  rw [imm4Of, field_toNat]; omega
theorem byte1Of_toNat (w : Word) : (byte1Of w).toNat = w.toNat % 256 := by
  rw [byte1Of, field_toNat]; omega
theorem addr12Of_toNat (w : Word) : (addr12Of w).toNat = w.toNat % 4096 := by
  rw [addr12Of, field_toNat]; omega

/-- Settles O5: the word of two bytes is the word of their four nibbles, whose fields the laws of the decoder read off;
as bit positions, each field is a quotient and a remainder of the word. -/
theorem fieldsOfTheInstructionWord : Obligations.FieldsOfTheInstructionWord := by
  refine ⟨fun b0 b1 => ⟨?_, ?_, ?_, ?_, byte1Of_wordOfBytes b0 b1, addr12Of_wordOfBytes b0 b1⟩, fun w =>
    ⟨opcodeOf_toNat w, registerAOf_toNat w, registerBOf_toNat w, imm4Of_toNat w, byte1Of_toNat w, addr12Of_toNat w⟩⟩
  · rw [wordOfBytes_eq_wordXYN, opcodeOf_wordXYN]
  · rw [wordOfBytes_eq_wordXYN, registerAOf_wordXYN]
  · rw [wordOfBytes_eq_wordXYN, registerBOf_wordXYN]
  · rw [wordOfBytes_eq_wordXYN, imm4Of_wordXYN]

end Sys2Proof
end

section
/-! The step as an equation (40_step_cycle.md R120, R122). -/

namespace Sys2Proof.Machine

/-- With no fault set and the pc in bounds, the step is the execution of the instruction at the pc, with the pc past it. -/
theorem step_eq_exec_currentInstr {s : State} (hf : s.fault = none) (hp : s.pc.toNat ≤ 0x0FFE) :
    step s = exec s.currentInstr s.advancePc := by
  unfold step
  rw [hf, s.fetch_of_le hp]
  rfl

/-- Settles O8: the instruction at the pc is by definition the one decoded from the two bytes there, and the advance
by definition changes the pc alone. -/
theorem stepExecutesTheDecodedInstruction : Obligations.StepExecutesTheDecodedInstruction :=
  fun _ hf hp => step_eq_exec_currentInstr hf hp

end Sys2Proof.Machine
end

section
/-! The two jumps without a push (42_jumps_calls.md R160, R164). -/

namespace Sys2Proof

theorem decode_wordNNN_jump (nnn : Addr12) : decode (wordNNN 0x1 nnn) = .jump nnn := by
  simp [decode]

theorem decode_wordNNN_jumpWithOffset (nnn : Addr12) : decode (wordNNN 0xB nnn) = .jumpWithOffset nnn := by
  simp [decode]

end Sys2Proof

namespace Sys2Proof.Machine

theorem exec_jump (s : State) (nnn : Addr12) : exec (.jump nnn) s = .next (s.setPc (zext16OfAddr nnn)) := rfl

theorem exec_jumpWithOffset (s : State) (nnn : Addr12) :
    exec (.jumpWithOffset nnn) s = .next (s.setPc (zext16OfByte (s.readReg 0x0) + zext16OfAddr nnn)) := rfl

theorem zext16OfAddr_toNat (nnn : Addr12) : (zext16OfAddr nnn).toNat = nnn.toNat :=
  BitVec.toNat_setWidth_of_le (by decide)

theorem zext16OfByte_toNat (v : Byte) : (zext16OfByte v).toNat = v.toNat :=
  BitVec.toNat_setWidth_of_le (by decide)

/-- A byte plus a 12-bit address is at most 0x10FE, so the 16-bit sum does not wrap (R164). -/
theorem zext16OfByte_add_zext16OfAddr_toNat (v : Byte) (nnn : Addr12) :
    (zext16OfByte v + zext16OfAddr nnn).toNat = v.toNat + nnn.toNat := by
  have hv := v.isLt
  have hn := nnn.isLt
  rw [BitVec.toNat_add, zext16OfByte_toNat, zext16OfAddr_toNat, Nat.mod_eq_of_lt (by omega)]

/-- Setting the pc changes no other part of the state. -/
theorem UnchangedBut.setPc (s : State) (v : Word) : UnchangedBut [.pc] s (s.setPc v) := fun p hp => by
  cases p <;> simp [Part.same] at hp ⊢

/-- Settles O31: zero-extension keeps the value of the address, and setting the pc changes the pc alone. -/
theorem jumpSetsThePc : Obligations.JumpSetsThePc := fun s nnn =>
  ⟨decode_wordNNN_jump nnn, _, exec_jump s nnn, zext16OfAddr_toNat nnn, .setPc s _⟩

/-- Settles O33: the 16-bit sum is the unbounded one, and setting the pc changes the pc alone. -/
theorem jumpWithOffsetAddsRegisterZero : Obligations.JumpWithOffsetAddsRegisterZero := fun s nnn =>
  ⟨decode_wordNNN_jumpWithOffset nnn, _, exec_jumpWithOffset s nnn, zext16OfByte_add_zext16OfAddr_toNat _ nnn,
    .setPc s _⟩

end Sys2Proof.Machine
end

section
/-! The skips on an immediate and on a key (43_skips.md R180, R181, R183, R189, R191). -/

namespace Sys2Proof

theorem decode_wordXKK_skipIfEqualImmediate (ra : RegIdx) (kk : Byte) :
    decode (wordXKK 0x3 ra kk) = .skipIfEqualImmediate ra kk := by
  simp [decode]

theorem decode_wordXKK_skipIfNotEqualImmediate (ra : RegIdx) (kk : Byte) :
    decode (wordXKK 0x4 ra kk) = .skipIfNotEqualImmediate ra kk := by
  simp [decode]

theorem decode_wordXKK_skipIfKeyPressed (ra : RegIdx) : decode (wordXKK 0xE ra 0x9E) = .skipIfKeyPressed ra := by
  simp [decode, decodeE]

theorem decode_wordXKK_skipIfKeyNotPressed (ra : RegIdx) :
    decode (wordXKK 0xE ra 0xA1) = .skipIfKeyNotPressed ra := by
  simp [decode, decodeE]

end Sys2Proof

namespace Sys2Proof.Machine

theorem exec_skipIfEqualImmediate (s : State) (ra : RegIdx) (kk : Byte) :
    exec (.skipIfEqualImmediate ra kk) s = .next (s.skipIf (s.readReg ra == kk)) := rfl

theorem exec_skipIfNotEqualImmediate (s : State) (ra : RegIdx) (kk : Byte) :
    exec (.skipIfNotEqualImmediate ra kk) s = .next (s.skipIf (s.readReg ra != kk)) := rfl

theorem exec_skipIfKeyPressed (s : State) (ra : RegIdx) :
    exec (.skipIfKeyPressed ra) s = .next (s.skipIf (s.keyPressed (lowNibble (s.readReg ra)))) := rfl

theorem exec_skipIfKeyNotPressed (s : State) (ra : RegIdx) :
    exec (.skipIfKeyNotPressed ra) s = .next (s.skipIf (!s.keyPressed (lowNibble (s.readReg ra)))) := rfl

/-- A skip, taken or not, changes no part of the state but the pc. -/
theorem UnchangedBut.skipIf (s : State) (c : Bool) : UnchangedBut [.pc] s (s.skipIf c) := by
  rw [State.skipIf_eq]
  exact .setPc s _

/-- A skip on the negated condition is taken when the condition fails. -/
theorem State.skipIf_not_pc (s : State) (c : Bool) :
    (s.skipIf !c).pc = if c = true then s.pc else s.pc + 2#16 := by
  rw [State.skipIf_pc]
  cases c <;> rfl

theorem State.skipIf_beq_pc (s : State) (a b : Byte) :
    (s.skipIf (a == b)).pc = if a = b then s.pc + 2#16 else s.pc := by
  simp only [State.skipIf_pc, beq_iff_eq]

theorem State.skipIf_bne_pc (s : State) (a b : Byte) :
    (s.skipIf (a != b)).pc = if a = b then s.pc else s.pc + 2#16 := by
  simp only [bne, State.skipIf_not_pc, beq_iff_eq]

theorem lowNibble_toNat (v : Byte) : (lowNibble v).toNat = v.toNat % 16 := by
  rw [lowNibble, BitVec.extractLsb'_toNat, Nat.shiftRight_zero]

/-- Settles O34: each skip is taken on its test of the register against imm8, and a skip changes the pc alone. -/
theorem skipsOnAnImmediate : Obligations.SkipsOnAnImmediate := fun s ra kk =>
  ⟨decode_wordXKK_skipIfEqualImmediate ra kk, decode_wordXKK_skipIfNotEqualImmediate ra kk,
    ⟨_, exec_skipIfEqualImmediate s ra kk, s.skipIf_beq_pc _ kk, .skipIf s _⟩,
    ⟨_, exec_skipIfNotEqualImmediate s ra kk, s.skipIf_bne_pc _ kk, .skipIf s _⟩⟩

/-- Settles O36: the key named by the remainder of x[rA] is the low nibble the machine reads, each skip is taken on that
key's state, and a skip changes the pc alone. -/
theorem skipsOnAKey : Obligations.SkipsOnAKey := by
  intro s ra k hk
  obtain rfl : k = lowNibble (s.readReg ra) := BitVec.eq_of_toNat_eq (hk.trans (lowNibble_toNat _).symm)
  exact ⟨decode_wordXKK_skipIfKeyPressed ra, decode_wordXKK_skipIfKeyNotPressed ra,
    ⟨_, exec_skipIfKeyPressed s ra, s.skipIf_pc _, .skipIf s _⟩,
    ⟨_, exec_skipIfKeyNotPressed s ra, s.skipIf_not_pc _, .skipIf s _⟩⟩

end Sys2Proof.Machine
end

section
/-! The register-immediate operations without a draw (44_immediate.md R200, R202), over the rules of a register write. -/

namespace Sys2Proof

theorem decode_wordXKK_setImmediate (ra : RegIdx) (kk : Byte) : decode (wordXKK 0x6 ra kk) = .setImmediate ra kk := by
  simp [decode]

theorem decode_wordXKK_addImmediate (ra : RegIdx) (kk : Byte) : decode (wordXKK 0x7 ra kk) = .addImmediate ra kk := by
  simp [decode]

end Sys2Proof

namespace Sys2Proof.Machine

theorem exec_setImmediate (s : State) (ra : RegIdx) (kk : Byte) :
    exec (.setImmediate ra kk) s = .next (s.writeReg ra kk) := rfl

theorem exec_addImmediate (s : State) (ra : RegIdx) (kk : Byte) :
    exec (.addImmediate ra kk) s = .next (s.writeReg ra (addResult (s.readReg ra) kk)) := rfl

/-- The remainder by 256 already fits in a byte, so taking it as one loses nothing (R202, R224). -/
theorem addResult_toNat (a b : Byte) : (addResult a b).toNat = (a.toNat + b.toNat) % 256 :=
  Nat.mod_mod _ 256

theorem State.readReg_writeReg_same (s : State) (r : RegIdx) (v : Byte) : (s.writeReg r v).readReg r = v := by
  rw [State.readReg_writeReg, if_pos rfl]

theorem RegsUnchangedBut.writeReg (s : State) (r : RegIdx) (v : Byte) : RegsUnchangedBut [r] s (s.writeReg r v) :=
  fun q hq => by rw [State.readReg_writeReg, if_neg (List.ne_of_not_mem_cons hq)]

/-- Writing a register changes no part of the state but the registers. -/
theorem UnchangedBut.writeReg (s : State) (r : RegIdx) (v : Byte) : UnchangedBut [.regs] s (s.writeReg r v) :=
  fun p hp => by cases p <;> simp [Part.same] at hp ⊢

/-- Settles O37: the instruction is one register write, which reads back as imm8 and changes that register alone. -/
theorem setImmediateWritesTheImmediate : Obligations.SetImmediateWritesTheImmediate := fun s ra kk =>
  ⟨decode_wordXKK_setImmediate ra kk, _, exec_setImmediate s ra kk, s.readReg_writeReg_same ra kk, .writeReg s ra _,
    .writeReg s ra _⟩

/-- Settles O38: the instruction is one register write, of the sum modulo 256, and so changes VF only when rA is VF. -/
theorem addImmediateWrapsWithoutFlag : Obligations.AddImmediateWrapsWithoutFlag := fun s ra kk =>
  ⟨decode_wordXKK_addImmediate ra kk, _, exec_addImmediate s ra kk,
    (congrArg BitVec.toNat (s.readReg_writeReg_same ra _)).trans (addResult_toNat _ kk), .writeReg s ra _,
    .writeReg s ra _⟩

end Sys2Proof.Machine
end

section
/-! The index register's immediate write (46_index_memory.md R250). -/

namespace Sys2Proof

theorem decode_wordNNN_setIndex (nnn : Addr12) : decode (wordNNN 0xA nnn) = .setIndex nnn := by
  simp [decode]

end Sys2Proof

namespace Sys2Proof.Machine

theorem exec_setIndex (s : State) (nnn : Addr12) : exec (.setIndex nnn) s = .next (s.setI (zext16OfAddr nnn)) := rfl

/-- Writing the index register changes no other part of the state. -/
theorem UnchangedBut.setI (s : State) (v : Word) : UnchangedBut [.index] s (s.setI v) := fun p hp => by
  cases p <;> simp [Part.same] at hp ⊢

/-- Settles O44: zero-extension keeps the value of the address, and writing the index register changes it alone. -/
theorem setIndexWritesTheAddress : Obligations.SetIndexWritesTheAddress := fun s nnn =>
  ⟨decode_wordNNN_setIndex nnn, _, exec_setIndex s nnn, zext16OfAddr_toNat nnn, .setI s _⟩

end Sys2Proof.Machine
end

section
/-! The timer transfers and the blocking key read (48_timers_keys.md R300, R302, R304, R306). -/

namespace Sys2Proof

theorem decode_wordXKK_readDelay (ra : RegIdx) : decode (wordXKK 0xF ra 0x07) = .readDelay ra := by
  simp [decode, decodeF]

theorem decode_wordXKK_getKey (ra : RegIdx) : decode (wordXKK 0xF ra 0x0A) = .getKey ra := by
  simp [decode, decodeF]

theorem decode_wordXKK_writeDelay (ra : RegIdx) : decode (wordXKK 0xF ra 0x15) = .writeDelay ra := by
  simp [decode, decodeF]

theorem decode_wordXKK_writeSound (ra : RegIdx) : decode (wordXKK 0xF ra 0x18) = .writeSound ra := by
  simp [decode, decodeF]

end Sys2Proof

namespace Sys2Proof.Machine

theorem exec_readDelay (s : State) (ra : RegIdx) : exec (.readDelay ra) s = .next (s.writeReg ra s.DT) := rfl

theorem exec_writeDelay (s : State) (ra : RegIdx) : exec (.writeDelay ra) s = .next (s.setDT (s.readReg ra)) := rfl

theorem exec_writeSound (s : State) (ra : RegIdx) : exec (.writeSound ra) s = .next (s.setST (s.readReg ra)) := rfl

theorem exec_getKey (s : State) (ra : RegIdx) : exec (.getKey ra) s = execGetKey ra s := rfl

/-- Writing the delay timer changes no other part of the state. -/
theorem UnchangedBut.setDT (s : State) (v : Byte) : UnchangedBut [.delay] s (s.setDT v) := fun p hp => by
  cases p <;> simp [Part.same] at hp ⊢

/-- Writing the sound timer changes no other part of the state. -/
theorem UnchangedBut.setST (s : State) (v : Byte) : UnchangedBut [.sound] s (s.setST v) := fun p hp => by
  cases p <;> simp [Part.same] at hp ⊢

/-- The scan stops at the lowest pressed key: the one it stops at is pressed and has none pressed below it, and there is
only one such key. -/
theorem State.firstPressed_eq_some {s : State} {k : BitVec 4} (hk : s.keyPressed k = true)
    (hbelow : ∀ l : BitVec 4, l.toNat < k.toNat → s.keyPressed l = false) :
    s.firstPressed (List.range 16) = some k.toNat := by
  obtain ⟨m, hfirst, hm, hbelow_m⟩ | ⟨-, hnone⟩ := s.firstPressed_cases
  · have hkm : ¬ k.toNat < m.toNat := fun h => Bool.false_ne_true ((hbelow_m k h).symm.trans hk)
    have hmk : ¬ m.toNat < k.toNat := fun h => Bool.false_ne_true ((hbelow m h).symm.trans hm)
    rw [hfirst, show m.toNat = k.toNat by omega]
  · exact absurd ((hnone k).symm.trans hk) Bool.false_ne_true

/-- With no key pressed the scan finds none. -/
theorem State.firstPressed_eq_none {s : State} (hnone : ∀ l : BitVec 4, s.keyPressed l = false) :
    s.firstPressed (List.range 16) = none := by
  obtain ⟨m, -, hm, -⟩ | ⟨hfirst, -⟩ := s.firstPressed_cases
  · exact absurd ((hnone m).symm.trans hm) Bool.false_ne_true
  · exact hfirst

theorem exec_getKey_of_lowest {s : State} (ra : RegIdx) {k : BitVec 4} (hk : s.keyPressed k = true)
    (hbelow : ∀ l : BitVec 4, l.toNat < k.toNat → s.keyPressed l = false) :
    exec (.getKey ra) s = .next (s.writeReg ra (k.setWidth 8)) := by
  rw [exec_getKey, execGetKey, State.firstPressed_eq_some hk hbelow, ← BitVec.ofNat_toNat]

theorem exec_getKey_of_none {s : State} (ra : RegIdx) (hnone : ∀ l : BitVec 4, s.keyPressed l = false) :
    exec (.getKey ra) s = .next s.rewindPc := by
  rw [exec_getKey, execGetKey, State.firstPressed_eq_none hnone]

/-- Settles O51: ReadDelay is one register write, which reads back as DT and changes that register alone; WriteDelay and
WriteSound set the one timer, which changes that timer alone. -/
theorem timerTransfers : Obligations.TimerTransfers := fun s ra =>
  ⟨decode_wordXKK_readDelay ra, decode_wordXKK_writeDelay ra, decode_wordXKK_writeSound ra,
    ⟨_, exec_readDelay s ra, s.readReg_writeReg_same ra _, .writeReg s ra _, .writeReg s ra _⟩,
    ⟨_, exec_writeDelay s ra, s.setDT_DT _, .setDT s _⟩,
    ⟨_, exec_writeSound s ra, s.setST_ST _, .setST s _⟩⟩

/-- Settles O52: the scan finds exactly the lowest pressed key, whose number a register holds whole, or no key, and then
the machine only rewinds the pc. -/
theorem getKeyTakesTheLowestKeyOrStalls : Obligations.GetKeyTakesTheLowestKeyOrStalls := by
  intro s ra
  refine ⟨decode_wordXKK_getKey ra, fun k hk hbelow => ?_, exec_getKey_of_none ra⟩
  refine ⟨_, exec_getKey_of_lowest ra hk hbelow, ?_, .writeReg s ra _, .writeReg s ra _⟩
  rw [State.readReg_writeReg_same, BitVec.toNat_setWidth_of_le (by decide)]

end Sys2Proof.Machine
end

section
/-! The decoder inverts the encoder, row by row of the opcode map (30_encoding.md R86 to R92). -/

namespace Sys2Proof

theorem decode_wordXKK_clearScreen (z : Nibble) : decode (wordXKK 0x0 z 0xE0) = .clearScreen z := by
  simp [decode, decode0]

theorem decode_wordXKK_ret (z : Nibble) : decode (wordXKK 0x0 z 0xEE) = .ret z := by
  simp [decode, decode0]

theorem decode_wordXKK_noOp (z : Nibble) : decode (wordXKK 0x0 z 0x00) = .noOp z := by
  simp [decode, decode0]

theorem decode_wordNNN_call (nnn : Addr12) : decode (wordNNN 0x2 nnn) = .call nnn := by
  simp [decode]

theorem decode_wordXYN_skipIfRegistersEqual (ra rb : RegIdx) (z : Nibble) :
    decode (wordXYN 0x5 ra rb z) = .skipIfRegistersEqual ra rb z := by
  simp [decode]

theorem decode_wordXYN_skipIfRegistersNotEqual (ra rb : RegIdx) (z : Nibble) :
    decode (wordXYN 0x9 ra rb z) = .skipIfRegistersNotEqual ra rb z := by
  simp [decode]

theorem decode_wordXKK_random (ra : RegIdx) (kk : Byte) : decode (wordXKK 0xC ra kk) = .random ra kk := by
  simp [decode]

theorem decode_wordXYN_draw (ra rb : RegIdx) (n : Nibble) : decode (wordXYN 0xD ra rb n) = .draw ra rb n := by
  simp [decode]

theorem decode_wordXYN_set (ra rb : RegIdx) : decode (wordXYN 0x8 ra rb 0x0) = .set ra rb := by
  simp [decode, decode8]

theorem decode_wordXYN_or (ra rb : RegIdx) : decode (wordXYN 0x8 ra rb 0x1) = .or ra rb := by
  simp [decode, decode8]

theorem decode_wordXYN_and (ra rb : RegIdx) : decode (wordXYN 0x8 ra rb 0x2) = .and ra rb := by
  simp [decode, decode8]

theorem decode_wordXYN_xor (ra rb : RegIdx) : decode (wordXYN 0x8 ra rb 0x3) = .xor ra rb := by
  simp [decode, decode8]

theorem decode_wordXYN_add (ra rb : RegIdx) : decode (wordXYN 0x8 ra rb 0x4) = .add ra rb := by
  simp [decode, decode8]

theorem decode_wordXYN_subtractAB (ra rb : RegIdx) : decode (wordXYN 0x8 ra rb 0x5) = .subtractAB ra rb := by
  simp [decode, decode8]

theorem decode_wordXYN_shiftRight (ra rb : RegIdx) : decode (wordXYN 0x8 ra rb 0x6) = .shiftRight ra rb := by
  simp [decode, decode8]

theorem decode_wordXYN_subtractBA (ra rb : RegIdx) : decode (wordXYN 0x8 ra rb 0x7) = .subtractBA ra rb := by
  simp [decode, decode8]

theorem decode_wordXYN_shiftLeft (ra rb : RegIdx) : decode (wordXYN 0x8 ra rb 0xE) = .shiftLeft ra rb := by
  simp [decode, decode8]

theorem decode_wordXKK_addIndex (ra : RegIdx) : decode (wordXKK 0xF ra 0x1E) = .addIndex ra := by
  simp [decode, decodeF]

theorem decode_wordXKK_setIndexGlyph (ra : RegIdx) : decode (wordXKK 0xF ra 0x29) = .setIndexGlyph ra := by
  simp [decode, decodeF]

theorem decode_wordXKK_storeBCD (ra : RegIdx) : decode (wordXKK 0xF ra 0x33) = .storeBCD ra := by
  simp [decode, decodeF]

theorem decode_wordXKK_storeRegisters (ra : RegIdx) : decode (wordXKK 0xF ra 0x55) = .storeRegisters ra := by
  simp [decode, decodeF]

theorem decode_wordXKK_loadRegisters (ra : RegIdx) : decode (wordXKK 0xF ra 0x65) = .loadRegisters ra := by
  simp [decode, decodeF]

/-! The residual of a family is what its chain of tests leaves over (R92). -/

theorem decode_wordNNN_unrecognized0 {raw : Addr12} (h : residual0 raw = true) :
    decode (wordNNN 0x0 raw) = .unrecognized0 raw := by
  simp_all [decode, decode0, residual0]

theorem decode_wordNNN_unrecognized8 {raw : Addr12} (h : residual8 raw = true) :
    decode (wordNNN 0x8 raw) = .unrecognized8 raw := by
  have hsel : rawImm4 raw = 0x8#4 ∨ rawImm4 raw = 0x9#4 ∨ rawImm4 raw = 0xA#4 ∨ rawImm4 raw = 0xB#4 ∨
      rawImm4 raw = 0xC#4 ∨ rawImm4 raw = 0xD#4 ∨ rawImm4 raw = 0xF#4 := by simpa [residual8] using h
  rcases hsel with h | h | h | h | h | h | h <;> simp [decode, decode8, h]

theorem decode_wordNNN_unrecognizedE {raw : Addr12} (h : residualE raw = true) :
    decode (wordNNN 0xE raw) = .unrecognizedE raw := by
  simp_all [decode, decodeE, residualE]

theorem decode_wordNNN_unrecognizedF {raw : Addr12} (h : residualF raw = true) :
    decode (wordNNN 0xF raw) = .unrecognizedF raw := by
  simp_all [decode, decodeF, residualF]

/-- Settles O1: each constructor's word goes back through its row's arm of the decoder; for the four Unrecognized terms
well-formedness says that no defined row of the family claims the word. -/
theorem decodeInvertsEncode : Obligations.DecodeInvertsEncode := by
  intro i hi
  cases i with
  | clearScreen z => exact decode_wordXKK_clearScreen z
  | ret z => exact decode_wordXKK_ret z
  | noOp z => exact decode_wordXKK_noOp z
  | jump nnn => exact decode_wordNNN_jump nnn
  | call nnn => exact decode_wordNNN_call nnn
  | skipIfEqualImmediate ra kk => exact decode_wordXKK_skipIfEqualImmediate ra kk
  | skipIfNotEqualImmediate ra kk => exact decode_wordXKK_skipIfNotEqualImmediate ra kk
  | skipIfRegistersEqual ra rb z => exact decode_wordXYN_skipIfRegistersEqual ra rb z
  | setImmediate ra kk => exact decode_wordXKK_setImmediate ra kk
  | addImmediate ra kk => exact decode_wordXKK_addImmediate ra kk
  | set ra rb => exact decode_wordXYN_set ra rb
  | or ra rb => exact decode_wordXYN_or ra rb
  | and ra rb => exact decode_wordXYN_and ra rb
  | xor ra rb => exact decode_wordXYN_xor ra rb
  | add ra rb => exact decode_wordXYN_add ra rb
  | subtractAB ra rb => exact decode_wordXYN_subtractAB ra rb
  | subtractBA ra rb => exact decode_wordXYN_subtractBA ra rb
  | shiftRight ra rb => exact decode_wordXYN_shiftRight ra rb
  | shiftLeft ra rb => exact decode_wordXYN_shiftLeft ra rb
  | skipIfRegistersNotEqual ra rb z => exact decode_wordXYN_skipIfRegistersNotEqual ra rb z
  | setIndex nnn => exact decode_wordNNN_setIndex nnn
  | jumpWithOffset nnn => exact decode_wordNNN_jumpWithOffset nnn
  | random ra kk => exact decode_wordXKK_random ra kk
  | draw ra rb n => exact decode_wordXYN_draw ra rb n
  | skipIfKeyPressed ra => exact decode_wordXKK_skipIfKeyPressed ra
  | skipIfKeyNotPressed ra => exact decode_wordXKK_skipIfKeyNotPressed ra
  | readDelay ra => exact decode_wordXKK_readDelay ra
  | getKey ra => exact decode_wordXKK_getKey ra
  | writeDelay ra => exact decode_wordXKK_writeDelay ra
  | writeSound ra => exact decode_wordXKK_writeSound ra
  | addIndex ra => exact decode_wordXKK_addIndex ra
  | setIndexGlyph ra => exact decode_wordXKK_setIndexGlyph ra
  | storeBCD ra => exact decode_wordXKK_storeBCD ra
  | storeRegisters ra => exact decode_wordXKK_storeRegisters ra
  | loadRegisters ra => exact decode_wordXKK_loadRegisters ra
  | unrecognized0 raw => exact decode_wordNNN_unrecognized0 hi
  | unrecognized8 raw => exact decode_wordNNN_unrecognized8 hi
  | unrecognizedE raw => exact decode_wordNNN_unrecognizedE hi
  | unrecognizedF raw => exact decode_wordNNN_unrecognizedF hi

end Sys2Proof
end

section
/-! The encoder inverts the decoder, and the Unrecognized space (30_encoding.md R81, R92, R95). -/

namespace Sys2Proof

/-! A word whose fixed fields have the values of a row is that row's word of its own operands. -/

theorem wordXKK_of_fields {w : Word} {op : Nibble} {kk : Byte} (ho : opcodeOf w = op) (hk : byte1Of w = kk) :
    wordXKK op (registerAOf w) kk = w := by
  subst ho hk; exact wordXKK_fields w

theorem wordXYN_of_fields {w : Word} {op n : Nibble} (ho : opcodeOf w = op) (hn : imm4Of w = n) :
    wordXYN op (registerAOf w) (registerBOf w) n = w := by
  subst ho hn; exact wordXYN_fields w

theorem wordNNN_of_opcode {w : Word} {op : Nibble} (ho : opcodeOf w = op) : wordNNN op (addr12Of w) = w := by
  subst ho; exact wordNNN_fields w

/-! Each family's chain of tests: the word of every outcome is the word tested. -/

theorem encode_decode0 {w : Word} (h : opcodeOf w = 0x0#4) : encode (decode0 w) = w := by
  unfold decode0
  split_ifs with hE0 hEE h00
  · exact wordXKK_of_fields h hE0
  · exact wordXKK_of_fields h hEE
  · exact wordXKK_of_fields h h00
  · exact wordNNN_of_opcode h

theorem encode_decode8 {w : Word} (h : opcodeOf w = 0x8#4) : encode (decode8 w) = w := by
  unfold decode8
  split_ifs with h0 h1 h2 h3 h4 h5 h6 h7 hE
  · exact wordXYN_of_fields h h0
  · exact wordXYN_of_fields h h1
  · exact wordXYN_of_fields h h2
  · exact wordXYN_of_fields h h3
  · exact wordXYN_of_fields h h4
  · exact wordXYN_of_fields h h5
  · exact wordXYN_of_fields h h6
  · exact wordXYN_of_fields h h7
  · exact wordXYN_of_fields h hE
  · exact wordNNN_of_opcode h

theorem encode_decodeE {w : Word} (h : opcodeOf w = 0xE#4) : encode (decodeE w) = w := by
  unfold decodeE
  split_ifs with h9E hA1
  · exact wordXKK_of_fields h h9E
  · exact wordXKK_of_fields h hA1
  · exact wordNNN_of_opcode h

theorem encode_decodeF {w : Word} (h : opcodeOf w = 0xF#4) : encode (decodeF w) = w := by
  unfold decodeF
  split_ifs with h07 h0A h15 h18 h1E h29 h33 h55 h65
  · exact wordXKK_of_fields h h07
  · exact wordXKK_of_fields h h0A
  · exact wordXKK_of_fields h h15
  · exact wordXKK_of_fields h h18
  · exact wordXKK_of_fields h h1E
  · exact wordXKK_of_fields h h29
  · exact wordXKK_of_fields h h33
  · exact wordXKK_of_fields h h55
  · exact wordXKK_of_fields h h65
  · exact wordNNN_of_opcode h

/-! Each family's chain of tests leaves exactly the family's residual to its Unrecognized tag. -/

theorem decode0_wellFormed (w : Word) : (decode0 w).wellFormed = true := by
  unfold decode0
  split_ifs <;> simp_all [Instr.wellFormed, residual0]

theorem decode8_wellFormed (w : Word) : (decode8 w).wellFormed = true := by
  unfold decode8
  split_ifs with h0 h1 h2 h3 h4 h5 h6 h7 hE
  iterate 9 rfl
  have hsel := nibble_residual8 (imm4Of w) ⟨h0, h1, h2, h3, h4, h5, h6, h7, hE⟩
  simpa [Instr.wellFormed, residual8] using hsel

theorem decodeE_wellFormed (w : Word) : (decodeE w).wellFormed = true := by
  unfold decodeE
  split_ifs <;> simp_all [Instr.wellFormed, residualE]

theorem decodeF_wellFormed (w : Word) : (decodeF w).wellFormed = true := by
  unfold decodeF
  split_ifs <;> simp_all [Instr.wellFormed, residualF]

theorem decode0_isUnrecognized (w : Word) :
    (decode0 w).isUnrecognized = true ↔ byte1Of w ≠ 0x00#8 ∧ byte1Of w ≠ 0xE0#8 ∧ byte1Of w ≠ 0xEE#8 := by
  unfold decode0
  split_ifs <;> simp_all [Instr.isUnrecognized]

theorem decode8_isUnrecognized (w : Word) :
    (decode8 w).isUnrecognized = true ↔ 8 ≤ (imm4Of w).toNat ∧ imm4Of w ≠ 0xE#4 := by
  unfold decode8
  split_ifs with h0 h1 h2 h3 h4 h5 h6 h7 hE
  iterate 9 simp_all [Instr.isUnrecognized]
  refine iff_of_true rfl ⟨?_, hE⟩
  rcases nibble_residual8 (imm4Of w) ⟨h0, h1, h2, h3, h4, h5, h6, h7, hE⟩ with h | h | h | h | h | h | h <;> simp [h]

theorem decodeE_isUnrecognized (w : Word) :
    (decodeE w).isUnrecognized = true ↔ byte1Of w ≠ 0x9E#8 ∧ byte1Of w ≠ 0xA1#8 := by
  unfold decodeE
  split_ifs <;> simp_all [Instr.isUnrecognized]

theorem decodeF_isUnrecognized (w : Word) :
    (decodeF w).isUnrecognized = true ↔
      byte1Of w ≠ 0x07#8 ∧ byte1Of w ≠ 0x0A#8 ∧ byte1Of w ≠ 0x15#8 ∧ byte1Of w ≠ 0x18#8 ∧ byte1Of w ≠ 0x1E#8 ∧
        byte1Of w ≠ 0x29#8 ∧ byte1Of w ≠ 0x33#8 ∧ byte1Of w ≠ 0x55#8 ∧ byte1Of w ≠ 0x65#8 := by
  unfold decodeF
  split_ifs <;> simp_all [Instr.isUnrecognized]

/-- The dispatch on the opcode (R85, R86): four values lead to a family; each of the other twelve is a row of its own,
which no further bit decides. -/
theorem decode_cases (w : Word) :
    (opcodeOf w = 0x0#4 ∧ decode w = decode0 w) ∨ (opcodeOf w = 0x8#4 ∧ decode w = decode8 w) ∨
    (opcodeOf w = 0xE#4 ∧ decode w = decodeE w) ∨ (opcodeOf w = 0xF#4 ∧ decode w = decodeF w) ∨
    (opcodeOf w ≠ 0x0#4 ∧ opcodeOf w ≠ 0x8#4 ∧ opcodeOf w ≠ 0xE#4 ∧ opcodeOf w ≠ 0xF#4 ∧
      encode (decode w) = w ∧ (decode w).wellFormed = true ∧ (decode w).isUnrecognized = false) := by
  unfold decode
  split
  case h_1 h => exact .inl ⟨h, rfl⟩
  case h_9 h => exact .inr (.inl ⟨h, rfl⟩)
  case h_15 h => exact .inr (.inr (.inl ⟨h, rfl⟩))
  case h_16 h0 h1 h2 h3 h4 h5 h6 h7 h8 h9 hA hB hC hD hE =>
    exact .inr (.inr (.inr (.inl
      ⟨nibble_eq_F _ ⟨h0, h1, h2, h3, h4, h5, h6, h7, h8, h9, hA, hB, hC, hD, hE⟩, rfl⟩)))
  all_goals
    rename_i h
    simp only [h, ne_eq]
    refine .inr (.inr (.inr (.inr ⟨by decide, by decide, by decide, by decide, ?_, rfl, rfl⟩)))
  · exact wordNNN_of_opcode h
  · exact wordNNN_of_opcode h
  · exact wordXKK_of_fields h rfl
  · exact wordXKK_of_fields h rfl
  · exact wordXYN_of_fields h rfl
  · exact wordXKK_of_fields h rfl
  · exact wordXKK_of_fields h rfl
  · exact wordXYN_of_fields h rfl
  · exact wordNNN_of_opcode h
  · exact wordNNN_of_opcode h
  · exact wordXKK_of_fields h rfl
  · exact wordXYN_of_fields h rfl

theorem encode_decode (w : Word) : encode (decode w) = w := by
  rcases decode_cases w with ⟨h, hd⟩ | ⟨h, hd⟩ | ⟨h, hd⟩ | ⟨h, hd⟩ | ⟨-, -, -, -, henc, -, -⟩
  · rw [hd, encode_decode0 h]
  · rw [hd, encode_decode8 h]
  · rw [hd, encode_decodeE h]
  · rw [hd, encode_decodeF h]
  · exact henc

theorem decode_wellFormed (w : Word) : (decode w).wellFormed = true := by
  rcases decode_cases w with ⟨-, hd⟩ | ⟨-, hd⟩ | ⟨-, hd⟩ | ⟨-, hd⟩ | ⟨-, -, -, -, -, hwf, -⟩
  · rw [hd, decode0_wellFormed]
  · rw [hd, decode8_wellFormed]
  · rw [hd, decodeE_wellFormed]
  · rw [hd, decodeF_wellFormed]
  · exact hwf

/-- Settles O2: by the dispatch on the opcode, every arm keeps all the bits of the word, and what reaches an Unrecognized
tag lies in that family's residual. -/
theorem encodeInvertsDecode : Obligations.EncodeInvertsDecode := fun w => ⟨encode_decode w, decode_wellFormed w⟩

/-- Settles O3: by the dispatch on the opcode, an Unrecognized tag comes from one of the four families and there from the
failure of every test of the family. -/
theorem unrecognizedSpaceIsExact : Obligations.UnrecognizedSpaceIsExact := by
  intro w
  rcases decode_cases w with ⟨h, hd⟩ | ⟨h, hd⟩ | ⟨h, hd⟩ | ⟨h, hd⟩ | ⟨h0, h8, hE, hF, -, -, hu⟩
  · rw [hd, decode0_isUnrecognized]; simp [h]
  · rw [hd, decode8_isUnrecognized]; simp [h]
  · rw [hd, decodeE_isUnrecognized]; simp [h]
  · rw [hd, decodeF_isUnrecognized]; simp [h]
  · simp [hu, h0, h8, hE, hF]

/-- Settles O4: the decoder, evaluated on each of the fourteen words. -/
theorem sampleWordsDecodeAsTheMapSays : Obligations.SampleWordsDecodeAsTheMapSays := by
  unfold Obligations.SampleWordsDecodeAsTheMapSays
  decide

end Sys2Proof
end

section
/-! Assembler lines (30_encoding.md R96, R98): a written line parses back to the instruction with its unwritten bits at
0. -/

namespace Sys2Proof.Machine

/-! The value of a field fits the field, and reads back as it. -/

@[simp] theorem nibbleField_toNat (v : Nibble) : nibbleField v.toNat = some v := by
  rw [nibbleField, if_pos v.isLt, BitVec.ofNat_toNat, BitVec.setWidth_eq]

@[simp] theorem byteField_toNat (v : Byte) : byteField v.toNat = some v := by
  rw [byteField, if_pos v.isLt, BitVec.ofNat_toNat, BitVec.setWidth_eq]

@[simp] theorem addrField_toNat (v : Addr12) : addrField v.toNat = some v := by
  rw [addrField, if_pos v.isLt, BitVec.ofNat_toNat, BitVec.setWidth_eq]

@[simp] theorem wordField_toNat (v : Word) : wordField v.toNat = some v := by
  rw [wordField, if_pos v.isLt, BitVec.ofNat_toNat, BitVec.setWidth_eq]

/-- A defined instruction, written and parsed, is its canonical form; an Unrecognized one is written as data, and its
word is decoded again. -/
theorem parseLine_written (i : Instr) :
    parseLine (written i) = some (if i.isUnrecognized then decode (encode i) else canonical i) := by
  cases i <;> simp [written, parseLine, canonical, Instr.isUnrecognized]

/-- An Unrecognized term has no bits that its written form leaves out. -/
theorem canonical_of_isUnrecognized {i : Instr} (hu : i.isUnrecognized = true) : canonical i = i := by
  cases i <;> simp [Instr.isUnrecognized, canonical] at hu ⊢

/-- Settles O7: the written line parses to the canonical instruction, or, for an Unrecognized word written as data, to
what that word decodes to, whose word it is. -/
theorem writtenFormAssemblesToTheWord : Obligations.WrittenFormAssemblesToTheWord := by
  intro i
  rw [assemble, parseLine_written, Option.some_or, Option.map_some]
  cases hu : i.isUnrecognized with
  | false => rfl
  | true => rw [if_pos rfl, encode_decode, canonical_of_isUnrecognized hu]

end Sys2Proof.Machine
end

section
/-! What leaves which parts of the state unchanged: the rules that compose, and one for each update not covered yet. -/

namespace Sys2Proof.Machine

theorem Part.same_trans {s t u : State} {p : Part} (hst : p.same s t) (htu : p.same t u) : p.same s u := by
  cases p with
  | stack => exact ⟨htu.1.trans hst.1, htu.2.trans hst.2⟩
  | regs | display | keys | memory => exact fun a => (htu a).trans (hst a)
  | index | pc | delay | sound | fault | params | draws => exact htu.trans hst

theorem UnchangedBut.trans {ps : List Part} {s t u : State} (hst : UnchangedBut ps s t) (htu : UnchangedBut ps t u) :
    UnchangedBut ps s u := fun p hp => Part.same_trans (hst p hp) (htu p hp)

theorem RegsUnchangedBut.trans {rs : List RegIdx} {s t u : State} (hst : RegsUnchangedBut rs s t)
    (htu : RegsUnchangedBut rs t u) : RegsUnchangedBut rs s u := fun r hr => (htu r hr).trans (hst r hr)

theorem RegsUnchangedBut.mono {rs qs : List RegIdx} {s t : State} (h : RegsUnchangedBut rs s t)
    (hsub : ∀ r ∈ rs, r ∈ qs) : RegsUnchangedBut qs s t := fun r hr => h r fun hm => hr (hsub r hm)

theorem UnchangedBut.clearDisplay (s : State) : UnchangedBut [.display] s s.clearDisplay := fun p hp => by
  cases p <;> simp [Part.same] at hp ⊢

theorem UnchangedBut.drawRandom (s : State) : UnchangedBut [.draws] s s.drawRandom.2 := fun p hp => by
  cases p <;> simp [Part.same] at hp ⊢

theorem UnchangedBut.writeKey (s : State) (k : BitVec 4) (b : Bool) : UnchangedBut [.keys] s (s.writeKey k b) :=
  fun p hp => by cases p <;> simp [Part.same] at hp ⊢

theorem UnchangedBut.withStack (s : State) (sp : Fin 49) (stack : Vector Word 48) :
    UnchangedBut [.stack] s { s with sp := sp, stack := stack } := fun p hp => by
  cases p with
  | stack => exact absurd (List.mem_singleton_self _) hp
  | regs | display | keys | memory => exact fun _ => rfl
  | index | pc | delay | sound | fault | params | draws => rfl

theorem UnchangedBut.withMem (s : State) (m : Memory) : UnchangedBut [.memory] s { s with mem := m } := fun p hp => by
  cases p with
  | memory => exact absurd (List.mem_singleton_self _) hp
  | stack => exact ⟨rfl, rfl⟩
  | regs | display | keys => exact fun _ => rfl
  | index | pc | delay | sound | fault | params | draws => rfl

theorem UnchangedBut.withRegs (s : State) (x : Vector Byte 16) : UnchangedBut [.regs] s { s with x := x } :=
  fun p hp => by
    cases p with
    | regs => exact absurd (List.mem_singleton_self _) hp
    | stack => exact ⟨rfl, rfl⟩
    | display | keys | memory => exact fun _ => rfl
    | index | pc | delay | sound | fault | params | draws => rfl

theorem UnchangedBut.withDisplay (s : State) (fb : Vector Bool 2048) : UnchangedBut [.display] s { s with fb := fb } :=
  fun p hp => by
    cases p with
    | display => exact absurd (List.mem_singleton_self _) hp
    | stack => exact ⟨rfl, rfl⟩
    | regs | keys | memory => exact fun _ => rfl
    | index | pc | delay | sound | fault | params | draws => rfl

theorem UnchangedBut.withRegsAndDisplay (s : State) (x : Vector Byte 16) (fb : Vector Bool 2048) :
    UnchangedBut [.regs, .display] s { s with fb := fb, x := x } :=
  ((UnchangedBut.withDisplay s fb).mono (by simp)).trans ((UnchangedBut.withRegs _ x).mono (by simp))

end Sys2Proof.Machine
end

section
/-! The 0x0 family, Call, and the four Unrecognized rows (41_zero_family.md, 42_jumps_calls.md R162). -/

namespace Sys2Proof

/-- byte0 of a word of op and nnn is op and the high nibble of nnn. -/
theorem byte0Of_wordNNN (op : Nibble) (nnn : Addr12) : byte0Of (wordNNN op nnn) = op ++ nnn.extractLsb' 8 4 := by
  apply BitVec.eq_of_toNat_eq
  rw [byte0Of, field_toNat, wordNNN_toNat, BitVec.toNat_append, ← Nat.shiftLeft_add_eq_or_of_lt (BitVec.isLt _),
    Nat.shiftLeft_eq, BitVec.extractLsb'_toNat, Nat.shiftRight_eq_div_pow]
  omega

end Sys2Proof

namespace Sys2Proof.Machine

theorem exec_clearScreen (s : State) (z : Nibble) : exec (.clearScreen z) s = .next s.clearDisplay := rfl

theorem exec_noOp (s : State) (z : Nibble) : exec (.noOp z) s = .next s := rfl

/-- What a Return can do: take the underflow, or go to the newest entry with sp one less (R142). -/
theorem exec_ret_cases (s : State) (z : Nibble) :
    (s.sp.val = 0 ∧ exec (.ret z) s = s.raise (.ret z) .stackUnderflow none) ∨
    (∃ (h : s.sp.val - 1 < 48) (h' : s.sp.val - 1 < 49), s.sp.val ≠ 0 ∧
      exec (.ret z) s = .next ({ s with sp := ⟨s.sp.val - 1, h'⟩ }.setPc s.stack[s.sp.val - 1])) := by
  have hexec : exec (.ret z) s = execReturn z s := rfl
  rw [hexec, execReturn]
  obtain ⟨hsp, hpop⟩ | ⟨h, h', hsp, hpop⟩ := s.pop_cases
  · exact .inl ⟨hsp, by rw [hpop]⟩
  · exact .inr ⟨h, h', hsp, by rw [hpop]⟩

/-- What a Call can do: take the overflow, or push the post-fetch pc and jump (R162). -/
theorem exec_call_cases (s : State) (nnn : Addr12) :
    (s.sp.val = 48 ∧ exec (.call nnn) s = s.raise (.call nnn) .stackOverflow none) ∨
    (∃ (h : s.sp.val < 48) (h' : s.sp.val + 1 < 49), exec (.call nnn) s =
      .next ({ s with stack := s.stack.set s.sp.val s.pc h, sp := ⟨s.sp.val + 1, h'⟩ }.setPc (zext16OfAddr nnn))) := by
  have hexec : exec (.call nnn) s = execCall nnn s := rfl
  rw [hexec, execCall]
  obtain ⟨h, h', hpush⟩ | ⟨hsp, hpush⟩ := s.push_cases s.pc
  · exact .inr ⟨h, h', by rw [hpush]⟩
  · exact .inl ⟨hsp, by rw [hpush]⟩

theorem UnchangedBut.withStack_setPc (s : State) (sp : Fin 49) (stack : Vector Word 48) (v : Word) :
    UnchangedBut [.pc, .stack] s ({ s with sp := sp, stack := stack }.setPc v) :=
  ((UnchangedBut.withStack s sp stack).mono (by simp)).trans ((UnchangedBut.setPc _ v).mono (by simp))

/-- An Unrecognized instruction does nothing but raise its fault (R146, R193, R230, R310). -/
theorem exec_of_isUnrecognized {i : Instr} (hi : i.isUnrecognized = true) (s : State) :
    exec i s = s.raise i .unrecognizedInstruction none := by
  cases i with
  | unrecognized0 | unrecognized8 | unrecognizedE | unrecognizedF => rfl
  | _ => cases hi

/-- Settles O28: clearing the display zeroes every cell and changes nothing else, and NoOp answers the state it got. -/
theorem clearScreenAndNoOp : Obligations.ClearScreenAndNoOp := fun s z =>
  ⟨decode_wordXKK_clearScreen z, decode_wordXKK_noOp z,
    ⟨_, exec_clearScreen s z, s.pixel_clearDisplay, .clearDisplay s⟩, exec_noOp s z⟩

/-- Settles O29: on a stack that is not empty, Return cannot underflow, so it pops. -/
theorem returnPopsTheStack : Obligations.ReturnPopsTheStack := by
  intro s z hne
  obtain ⟨hsp, -⟩ | ⟨h, h', -, hexec⟩ := exec_ret_cases s z
  · exact absurd hsp hne
  · exact ⟨decode_wordXKK_ret z, _, hexec, Nat.succ_pred_eq_of_ne_zero hne, rfl, rfl, .withStack_setPc s _ _ _⟩

/-- Settles O32: with fewer than 48 entries held, Call cannot overflow, so it pushes; the array changes at the old sp
alone. -/
theorem callPushesAndJumps : Obligations.CallPushesAndJumps := by
  intro s nnn hlt
  obtain ⟨hsp, -⟩ | ⟨h, h', hexec⟩ := exec_call_cases s nnn
  · omega
  · refine ⟨decode_wordNNN_call nnn, _, hexec, zext16OfAddr_toNat nnn, rfl, fun k hk => ?_, .withStack_setPc s _ _ _⟩
    simp only [State.setPc_stack, Vector.getElem_set, eq_comm]

/-- Settles O30: the fault record's bytes are the two bytes of the word of opcode and raw bits. -/
theorem unrecognizedWordsTakeTheFault : Obligations.UnrecognizedWordsTakeTheFault := by
  intro s raw op i h
  obtain ⟨hi, hword⟩ : i.isUnrecognized = true ∧ encode i = wordNNN op raw := by
    rcases h with ⟨rfl, rfl⟩ | ⟨rfl, rfl⟩ | ⟨rfl, rfl⟩ | ⟨rfl, rfl⟩ <;> exact ⟨rfl, rfl⟩
  rw [exec_of_isUnrecognized hi, State.raise_eq, Instr.bytes, hword, byte0Of_wordNNN, byte1Of_wordNNN]
  rfl

end Sys2Proof.Machine
end

section
/-! The skips on two registers (43_skips.md R185, R187) and Random (44_immediate.md R204). -/

namespace Sys2Proof.Machine

theorem exec_skipIfRegistersEqual (s : State) (ra rb : RegIdx) (z : Nibble) :
    exec (.skipIfRegistersEqual ra rb z) s = .next (s.skipIf (s.readReg ra == s.readReg rb)) := rfl

theorem exec_skipIfRegistersNotEqual (s : State) (ra rb : RegIdx) (z : Nibble) :
    exec (.skipIfRegistersNotEqual ra rb z) s = .next (s.skipIf (s.readReg ra != s.readReg rb)) := rfl

theorem exec_random (s : State) (ra : RegIdx) (kk : Byte) :
    exec (.random ra kk) s = .next (s.drawRandom.2.writeReg ra (Config.randomByte s.draws &&& kk)) := rfl

/-- Settles O35: each skip is taken on its test of the two registers, and a skip changes the pc alone. -/
theorem skipsOnTwoRegisters : Obligations.SkipsOnTwoRegisters := fun s ra rb z =>
  ⟨decode_wordXYN_skipIfRegistersEqual ra rb z, decode_wordXYN_skipIfRegistersNotEqual ra rb z,
    ⟨_, exec_skipIfRegistersEqual s ra rb z, s.skipIf_beq_pc _ _, .skipIf s _⟩,
    ⟨_, exec_skipIfRegistersNotEqual s ra rb z, s.skipIf_bne_pc _ _, .skipIf s _⟩⟩

/-- A draw followed by a register write changes the counter and the registers alone. -/
theorem UnchangedBut.drawRandom_writeReg (s : State) (r : RegIdx) (v : Byte) :
    UnchangedBut [.regs, .draws] s (s.drawRandom.2.writeReg r v) :=
  ((UnchangedBut.drawRandom s).mono (by simp)).trans ((UnchangedBut.writeReg _ r v).mono (by simp))

/-- Settles O39: one draw, then one register write of its conjunction with imm8; nothing is said of the draw's value. -/
theorem randomMasksOneDraw : Obligations.RandomMasksOneDraw := fun s ra kk =>
  ⟨decode_wordXKK_random ra kk, _, exec_random s ra kk, rfl,
    fun k _ => by rw [State.readReg_writeReg_same, BitVec.getLsbD_and],
    .writeReg s.drawRandom.2 ra _, .drawRandom_writeReg s ra _⟩

end Sys2Proof.Machine
end

section
/-! The 0x8 family (45_alu.md): the results and flags as numbers, and the two orders in which a flag is written. -/

namespace Sys2Proof.Machine

theorem exec_set (s : State) (ra rb : RegIdx) : exec (.set ra rb) s = .next (s.writeReg ra (s.readReg rb)) := rfl

theorem exec_or (s : State) (ra rb : RegIdx) :
    exec (.or ra rb) s = .next (s.writeReg ra (s.readReg ra ||| s.readReg rb)) := rfl

theorem exec_and (s : State) (ra rb : RegIdx) :
    exec (.and ra rb) s = .next (s.writeReg ra (s.readReg ra &&& s.readReg rb)) := rfl

theorem exec_xor (s : State) (ra rb : RegIdx) :
    exec (.xor ra rb) s = .next (s.writeReg ra (s.readReg ra ^^^ s.readReg rb)) := rfl

theorem exec_add (s : State) (ra rb : RegIdx) : exec (.add ra rb) s =
    .next (s.writeResultThenFlag ra (addResult (s.readReg ra) (s.readReg rb))
      (addCarry (s.readReg ra) (s.readReg rb))) := rfl

theorem exec_subtractAB (s : State) (ra rb : RegIdx) : exec (.subtractAB ra rb) s =
    .next (s.writeResultThenFlag ra (subResult (s.readReg ra) (s.readReg rb))
      (subNoBorrow (s.readReg ra) (s.readReg rb))) := rfl

theorem exec_subtractBA (s : State) (ra rb : RegIdx) : exec (.subtractBA ra rb) s =
    .next (s.writeResultThenFlag ra (subResult (s.readReg rb) (s.readReg ra))
      (subNoBorrow (s.readReg rb) (s.readReg ra))) := rfl

theorem exec_shiftRight (s : State) (ra rb : RegIdx) : exec (.shiftRight ra rb) s =
    .next (s.writeFlagThenShift ra (shiftRightOut (s.readReg ra)) shiftRightResult) := rfl

theorem exec_shiftLeft (s : State) (ra rb : RegIdx) : exec (.shiftLeft ra rb) s =
    .next (s.writeFlagThenShift ra (shiftLeftOut (s.readReg ra)) shiftLeftResult) := rfl

/-! Results and flags as numbers -/

theorem flagByte_toNat (c : Bool) : (flagByte c).toNat = if c then 1 else 0 := by
  cases c <;> rfl

theorem addCarry_toNat (a b : Byte) : (addCarry a b).toNat = if 255 < a.toNat + b.toNat then 1 else 0 := by
  simp only [addCarry, flagByte_toNat, decide_eq_true_eq, gt_iff_lt]

theorem subNoBorrow_toNat (a b : Byte) : (subNoBorrow a b).toNat = if b.toNat ≤ a.toNat then 1 else 0 := by
  simp only [subNoBorrow, flagByte_toNat, decide_eq_true_eq, ge_iff_le]

/-- The remainder by 256 drops the 256 that was added, exactly when nothing was borrowed (R225, R227). -/
theorem subResult_toNat (a b : Byte) :
    (subResult a b).toNat = if b.toNat ≤ a.toNat then a.toNat - b.toNat else a.toNat + 256 - b.toNat := by
  have ha := a.isLt
  have hb := b.isLt
  rw [subResult, BitVec.toNat_ofNat]
  split <;> omega

theorem shiftRightOut_toNat (a : Byte) : (shiftRightOut a).toNat = a.toNat % 2 := by
  rw [shiftRightOut, BitVec.toNat_and]
  exact Nat.and_one_is_mod _

theorem shiftLeftOut_toNat (a : Byte) : (shiftLeftOut a).toNat = a.toNat / 128 := by
  have ha := a.isLt
  have hbit : (shiftLeftOut a).toNat = (a >>> 7).toNat % 2 := shiftRightOut_toNat (a >>> 7)
  rw [hbit, BitVec.toNat_ushiftRight, Nat.shiftRight_eq_div_pow]
  omega

theorem shiftRightResult_toNat (a : Byte) : (shiftRightResult a).toNat = a.toNat / 2 := by
  rw [shiftRightResult, BitVec.toNat_ushiftRight, Nat.shiftRight_eq_div_pow, pow_one]

theorem shiftLeftResult_toNat (a : Byte) : (shiftLeftResult a).toNat = a.toNat * 2 % 256 := by
  rw [shiftLeftResult, BitVec.toNat_shiftLeft, Nat.shiftLeft_eq, pow_one]

/-! The result, then the flag (R219) -/

theorem State.writeResultThenFlag_vf (s : State) (ra : RegIdx) (v flag : Byte) :
    (s.writeResultThenFlag ra v flag).readReg vf = flag := State.readReg_writeReg_same _ _ _

theorem State.writeResultThenFlag_ra (s : State) {ra : RegIdx} (h : ra ≠ vf) (v flag : Byte) :
    (s.writeResultThenFlag ra v flag).readReg ra = v := by
  rw [State.writeResultThenFlag, State.readReg_writeReg, if_neg h, State.readReg_writeReg_same]

theorem RegsUnchangedBut.writeReg_writeReg (s : State) (q r : RegIdx) (v w : Byte) :
    RegsUnchangedBut [q, r] s ((s.writeReg q v).writeReg r w) :=
  ((RegsUnchangedBut.writeReg s q v).mono (by simp)).trans ((RegsUnchangedBut.writeReg _ r w).mono (by simp))

theorem UnchangedBut.writeReg_writeReg (s : State) (q r : RegIdx) (v w : Byte) :
    UnchangedBut [.regs] s ((s.writeReg q v).writeReg r w) :=
  (UnchangedBut.writeReg s q v).trans (.writeReg _ r w)

theorem RegsUnchangedBut.writeResultThenFlag (s : State) (ra : RegIdx) (v flag : Byte) :
    RegsUnchangedBut [ra, vf] s (s.writeResultThenFlag ra v flag) := .writeReg_writeReg s ra vf v flag

theorem UnchangedBut.writeResultThenFlag (s : State) (ra : RegIdx) (v flag : Byte) :
    UnchangedBut [.regs] s (s.writeResultThenFlag ra v flag) := .writeReg_writeReg s ra vf v flag

/-! The flag, then the shift (R226, R228) -/

theorem State.writeFlagThenShift_vf (s : State) {ra : RegIdx} (h : ra ≠ vf) (flag : Byte) (f : Byte → Byte) :
    (s.writeFlagThenShift ra flag f).readReg vf = flag := by
  rw [State.writeFlagThenShift, State.readReg_writeReg, if_neg h.symm, State.readReg_writeReg_same]

theorem State.writeFlagThenShift_ra (s : State) {ra : RegIdx} (h : ra ≠ vf) (flag : Byte) (f : Byte → Byte) :
    (s.writeFlagThenShift ra flag f).readReg ra = f (s.readReg ra) := by
  rw [State.writeFlagThenShift, State.readReg_writeReg_same, State.readReg_writeReg, if_neg h]

/-- With rA = 0xF it is the flag that is shifted (decision D12). -/
theorem State.writeFlagThenShift_vf_vf (s : State) (flag : Byte) (f : Byte → Byte) :
    (s.writeFlagThenShift vf flag f).readReg vf = f flag := by
  rw [State.writeFlagThenShift, State.readReg_writeReg_same, State.readReg_writeReg_same]

theorem RegsUnchangedBut.writeFlagThenShift (s : State) (ra : RegIdx) (flag : Byte) (f : Byte → Byte) :
    RegsUnchangedBut [ra, vf] s (s.writeFlagThenShift ra flag f) :=
  (RegsUnchangedBut.writeReg_writeReg s vf ra flag _).mono (by simp)

theorem UnchangedBut.writeFlagThenShift (s : State) (ra : RegIdx) (flag : Byte) (f : Byte → Byte) :
    UnchangedBut [.regs] s (s.writeFlagThenShift ra flag f) := .writeReg_writeReg s vf ra flag _

/-- Settles O40: each of the four is one register write, of a value with the stated bits. -/
theorem setAndLogicWriteNoFlag : Obligations.SetAndLogicWriteNoFlag := by
  intro s ra rb
  refine ⟨decode_wordXYN_set ra rb, decode_wordXYN_or ra rb, decode_wordXYN_and ra rb, decode_wordXYN_xor ra rb,
    fun i f h => ?_⟩
  obtain ⟨v, hexec, hbits⟩ : ∃ v, exec i s = .next (s.writeReg ra v) ∧
      ∀ k, v.getLsbD k = f ((s.readReg ra).getLsbD k) ((s.readReg rb).getLsbD k) := by
    rcases h with ⟨rfl, rfl⟩ | ⟨rfl, rfl⟩ | ⟨rfl, rfl⟩ | ⟨rfl, rfl⟩
    · exact ⟨_, exec_set s ra rb, fun _ => rfl⟩
    · exact ⟨_, exec_or s ra rb, fun _ => BitVec.getLsbD_or⟩
    · exact ⟨_, exec_and s ra rb, fun _ => BitVec.getLsbD_and⟩
    · exact ⟨_, exec_xor s ra rb, fun _ => BitVec.getLsbD_xor⟩
  exact ⟨_, hexec, fun k _ => by rw [State.readReg_writeReg_same, hbits], .writeReg s ra v, .writeReg s ra v⟩

/-- Settles O41: the sum is written first and the carry last, both computed from the old operands. -/
theorem addWritesSumThenCarry : Obligations.AddWritesSumThenCarry := by
  intro s ra rb
  refine ⟨decode_wordXYN_add ra rb, _, exec_add s ra rb, fun h => ?_, ?_, .writeResultThenFlag s ra _ _,
    .writeResultThenFlag s ra _ _⟩
  · rw [s.writeResultThenFlag_ra h, addResult_toNat]
  · rw [State.writeResultThenFlag_vf, addCarry_toNat]

/-- Settles O42: both directions write the difference of minuend and subtrahend first and no-borrow last. -/
theorem subtractsWriteDifferenceThenNoBorrow : Obligations.SubtractsWriteDifferenceThenNoBorrow := by
  intro s ra rb
  refine ⟨decode_wordXYN_subtractAB ra rb, decode_wordXYN_subtractBA ra rb, fun i a b h => ?_⟩
  have hexec : exec i s = .next (s.writeResultThenFlag ra (subResult a b) (subNoBorrow a b)) := by
    rcases h with ⟨rfl, rfl, rfl⟩ | ⟨rfl, rfl, rfl⟩
    · exact exec_subtractAB s ra rb
    · exact exec_subtractBA s ra rb
  refine ⟨_, hexec, fun hne => ?_, ?_, .writeResultThenFlag s ra _ _, .writeResultThenFlag s ra _ _⟩
  · rw [s.writeResultThenFlag_ra hne, subResult_toNat]
  · rw [State.writeResultThenFlag_vf, subNoBorrow_toNat]

/-- Settles O43: the flag is written first; with rA = 0xF the shift then reads it, a bit whose half is 0. -/
theorem shiftsWriteTheFlagFirst : Obligations.ShiftsWriteTheFlagFirst := by
  intro s ra rb
  refine ⟨decode_wordXYN_shiftRight ra rb, decode_wordXYN_shiftLeft ra rb,
    ⟨_, exec_shiftRight s ra rb, fun h => ⟨?_, ?_⟩, ?_, .writeFlagThenShift s ra _ _, .writeFlagThenShift s ra _ _⟩,
    ⟨_, exec_shiftLeft s ra rb, fun h => ⟨?_, ?_⟩, ?_, .writeFlagThenShift s ra _ _, .writeFlagThenShift s ra _ _⟩⟩
  · rw [s.writeFlagThenShift_ra h, shiftRightResult_toNat]
  · rw [s.writeFlagThenShift_vf h, shiftRightOut_toNat]
  · rintro rfl
    rw [State.writeFlagThenShift_vf_vf, shiftRightResult_toNat, shiftRightOut_toNat]
    omega
  · rw [s.writeFlagThenShift_ra h, shiftLeftResult_toNat]
  · rw [s.writeFlagThenShift_vf h, shiftLeftOut_toNat]
  · rintro rfl
    have hlt := (s.readReg vf).isLt
    rw [State.writeFlagThenShift_vf_vf, shiftLeftResult_toNat, shiftLeftOut_toNat]
    omega

end Sys2Proof.Machine
end

section
/-! AddIndex and SetIndexGlyph (46_index_memory.md R252, R255). -/

namespace Sys2Proof.Machine

/-- AddIndex with its flag write as one of the two cases of decision D9. -/
theorem exec_addIndex (s : State) (ra : RegIdx) : exec (.addIndex ra) s =
    .next (if 0x0FFF < s.indexSum ra then (s.setI (BitVec.ofNat 16 (s.indexSum ra))).writeReg vf 0x01#8
      else s.setI (BitVec.ofNat 16 (s.indexSum ra))) := by
  have hexec : exec (.addIndex ra) s = execAddIndex ra s := rfl
  simp only [hexec, execAddIndex, indexOverflows, gt_iff_lt, decide_eq_true_eq]

theorem exec_setIndexGlyph (s : State) (ra : RegIdx) :
    exec (.setIndexGlyph ra) s = .next (s.setI (glyphAddr (lowNibble (s.readReg ra)))) := rfl

theorem glyphAddr_toNat (d : BitVec 4) : (glyphAddr d).toNat = 0x050 + 5 * d.toNat := by
  have hd := d.isLt
  rw [glyphAddr, BitVec.toNat_ofNat]
  omega

theorem UnchangedBut.setI_writeReg (s : State) (v : Word) (r : RegIdx) (b : Byte) :
    UnchangedBut [.regs, .index] s ((s.setI v).writeReg r b) :=
  ((UnchangedBut.setI s v).mono (by simp)).trans ((UnchangedBut.writeReg _ r b).mono (by simp))

/-- Settles O45: I takes 16 bits of the sum in both cases; the flag is written in the case of an overflow alone. -/
theorem addIndexFlagsOverflowPast0xFFF : Obligations.AddIndexFlagsOverflowPast0xFFF := by
  intro s ra
  refine ⟨decode_wordXKK_addIndex ra, _, exec_addIndex s ra, ?_⟩
  have hsum : s.indexSum ra = s.I.toNat + (s.readReg ra).toNat := rfl
  rw [← hsum]
  by_cases h : 0x0FFF < s.indexSum ra
  · rw [if_pos h, if_pos h]
    exact ⟨BitVec.toNat_ofNat _ _, State.readReg_writeReg_same _ _ _, .writeReg (s.setI _) vf _, .setI_writeReg s _ vf _⟩
  · rw [if_neg h, if_neg h]
    exact ⟨BitVec.toNat_ofNat _ _, rfl, fun _ _ => rfl, (UnchangedBut.setI s _).mono (by simp)⟩

/-- Settles O46: the address of the glyph fits in 16 bits, and its number is the remainder of x[rA]. -/
theorem setIndexGlyphPointsAtTheGlyph : Obligations.SetIndexGlyphPointsAtTheGlyph := fun s ra =>
  ⟨decode_wordXKK_setIndexGlyph ra, _, exec_setIndexGlyph s ra,
    by rw [State.setI_I, glyphAddr_toNat, lowNibble_toNat], .setI s _⟩

end Sys2Proof.Machine
end

section
/-! The block transfers (46_index_memory.md R258, R260, R262): each faults, with the fault table's condition, or runs to
its end. -/

namespace Sys2Proof.Machine

/-- The block `vs` stored from address `ea` up: `t` has the bytes of `vs` there and the bytes of `s` everywhere else, in
canonical memory. -/
structure BlockStored (s t : State) (ea : Nat) (vs : List Byte) : Prop where
  memWf : t.memWf
  inside : ∀ k (hk : k < vs.length), t.readByte (ea + k) = vs[k]
  outside : ∀ a, a < ea ∨ ea + vs.length ≤ a → t.readByte a = s.readByte a

/-- A block store that fits in memory, or is empty, changes memory alone and stores its block. -/
theorem State.storeBytes_of_fits (s : State) {ea : Nat} {vs : List Byte} (hfits : vs = [] ∨ ea + vs.length ≤ 0x1000) :
    ∃ m, s.storeBytes ea vs = .ok { s with mem := m } ∧ (s.memWf → BlockStored s { s with mem := m } ea vs) := by
  obtain ⟨-, m, hok, hmem⟩ | ⟨hne, hlong, -⟩ := State.storeBytes_cases vs s ea
  · refine ⟨m, hok, fun hwf => ?_⟩
    obtain ⟨hkeep, hread⟩ := hmem hwf.1
    refine ⟨hkeep hwf, fun k hk => ?_, fun a ha => (hread a).trans (if_neg (by omega))⟩
    refine (hread (ea + k)).trans ?_
    rw [if_pos (by omega), Nat.add_sub_cancel_left, List.getD_eq_getElem _ _ hk]
  · exact absurd hlong (Nat.not_lt.mpr (hfits.resolve_left hne))

/-- What a store of the n + 1 bytes `vs` at I can do. -/
theorem State.finishAccess_storeBytes_cases (s : State) (i : Instr) {vs : List Byte} {n : Nat} (hn : vs.length = n + 1) :
    (0xFFF < s.I.toNat + n ∧ s.finishAccess i (s.storeBytes (s.indexAddr 0) vs) =
      s.raise i .memoryOutOfBounds (some (max s.I.toNat 0x1000))) ∨
    (s.I.toNat + n ≤ 0xFFF ∧ ∃ m, s.finishAccess i (s.storeBytes (s.indexAddr 0) vs) = .next { s with mem := m } ∧
      (s.memWf → BlockStored s { s with mem := m } s.I.toNat vs)) := by
  rw [State.indexAddr, Nat.add_zero]
  obtain ⟨hfits, -⟩ | ⟨-, hlong, herr⟩ := State.storeBytes_cases vs s s.I.toNat
  · obtain ⟨m, hok, hblock⟩ := s.storeBytes_of_fits hfits
    have hfits := hfits.resolve_left (List.ne_nil_of_length_eq_add_one hn)
    exact .inr ⟨by omega, m, by rw [hok]; rfl, hblock⟩
  · exact .inl ⟨by omega, by rw [herr]; rfl⟩

/-- What a StoreBCD can do (R258). -/
theorem exec_storeBCD_cases (s : State) (ra : RegIdx) :
    (0xFFF < s.I.toNat + 2 ∧ exec (.storeBCD ra) s =
      s.raise (.storeBCD ra) .memoryOutOfBounds (some (max s.I.toNat 0x1000))) ∨
    (s.I.toNat + 2 ≤ 0xFFF ∧ ∃ m, exec (.storeBCD ra) s = .next { s with mem := m } ∧
      (s.memWf → BlockStored s { s with mem := m } s.I.toNat (bcdDigits (s.readReg ra)))) :=
  s.finishAccess_storeBytes_cases (.storeBCD ra) rfl

theorem State.regsUpTo_length (s : State) (n : Nat) : (s.regsUpTo n).length = n + 1 := by
  rw [State.regsUpTo, List.length_map, List.length_range]

theorem State.regsUpTo_getElem (s : State) (n k : Nat) (hk : k < (s.regsUpTo n).length) :
    (s.regsUpTo n)[k] = s.readReg (BitVec.ofNat 4 k) := by
  simp only [State.regsUpTo, List.getElem_map, List.getElem_range]

/-- What a StoreRegisters can do (R260). -/
theorem exec_storeRegisters_cases (s : State) (ra : RegIdx) :
    (0xFFF < s.I.toNat + ra.toNat ∧ exec (.storeRegisters ra) s =
      s.raise (.storeRegisters ra) .memoryOutOfBounds (some (max s.I.toNat 0x1000))) ∨
    (s.I.toNat + ra.toNat ≤ 0xFFF ∧ ∃ m, exec (.storeRegisters ra) s = .next { s with mem := m } ∧
      (s.memWf → BlockStored s { s with mem := m } s.I.toNat (s.regsUpTo ra.toNat))) :=
  s.finishAccess_storeBytes_cases (.storeRegisters ra) (s.regsUpTo_length ra.toNat)

/-- Both fields give the count the spec names: the registerB of every Fx65 is 6 (R262). -/
theorem loadCount_eq_lastLoaded (f : LoadCountField) (ra : RegIdx) : loadCount f ra = lastLoaded f ra := by
  cases f with
  | a => rfl
  | b =>
    rw [loadCount, lastLoaded, registerBOf_toNat, encode, wordXKK_toNat]
    simp only [BitVec.toNat_ofNat, BitVec.ofNat_eq_ofNat]
    omega

theorem lastLoaded_lt (f : LoadCountField) (ra : RegIdx) : lastLoaded f ra < 16 := by
  cases f with
  | a => exact ra.isLt
  | b => exact (by decide : 6 < 16)

/-- What a LoadRegisters can do (R262). -/
theorem exec_loadRegisters_cases (s : State) (ra : RegIdx) :
    (0xFFF < s.I.toNat + lastLoaded s.params.loadCountField ra ∧ exec (.loadRegisters ra) s =
      s.raise (.loadRegisters ra) .memoryOutOfBounds (some (max s.I.toNat 0x1000))) ∨
    (s.I.toNat + lastLoaded s.params.loadCountField ra ≤ 0xFFF ∧ ∃ x, exec (.loadRegisters ra) s = .next { s with x := x } ∧
      ∀ q : RegIdx, { s with x := x }.readReg q =
        if q.toNat ≤ lastLoaded s.params.loadCountField ra then s.readByte (s.I.toNat + q.toNat) else s.readReg q) := by
  have hexec : exec (.loadRegisters ra) s = execLoadRegisters ra s := rfl
  have hlt := lastLoaded_lt s.params.loadCountField ra
  rw [hexec, execLoadRegisters, loadCount_eq_lastLoaded, List.range_eq_range']
  generalize lastLoaded s.params.loadCountField ra = n at hlt ⊢
  obtain ⟨hfit, t, hok, ht, hread⟩ | ⟨-, hlong, herr⟩ := State.loadLoop_cases (n + 1) s 0 (by omega)
  · refine .inr ⟨by omega, t.x, by rw [hok, State.finishAccess, ← ht], fun q => ?_⟩
    rw [← ht, hread q]
    simp only [Nat.zero_le, true_and, Nat.zero_add, Nat.lt_succ_iff]
  · exact .inl ⟨by omega, by rw [herr]; rfl⟩

/-- Settles O47: with the last address in bounds the three digits are stored as one block. -/
theorem storeBCDStoresThreeDigits : Obligations.StoreBCDStoresThreeDigits := by
  intro s ra hwf hI
  obtain ⟨hout, -⟩ | ⟨-, m, hexec, hblock⟩ := exec_storeBCD_cases s ra
  · omega
  obtain ⟨hwf', inside, outside⟩ := hblock hwf
  have hv := (s.readReg ra).isLt
  refine ⟨decode_wordXKK_storeBCD ra, _, hexec, hwf', ?_, ?_, ?_, fun a ha => outside a ?_, .withMem s m⟩
  · rw [← Nat.add_zero s.I.toNat, inside 0 (by decide : 0 < 3)]
    exact Nat.mod_eq_of_lt (by omega)
  · rw [inside 1 (by decide : 1 < 3)]
    exact Nat.mod_eq_of_lt (by omega)
  · rw [inside 2 (by decide : 2 < 3)]
    exact Nat.mod_eq_of_lt (by omega)
  · rwa [show (bcdDigits (s.readReg ra)).length = 3 from rfl]

/-- Settles O48: with the last address in bounds x[0] to x[rA] are stored as one block. -/
theorem storeRegistersStoresUpToRA : Obligations.StoreRegistersStoresUpToRA := by
  intro s ra hwf hI
  obtain ⟨hout, -⟩ | ⟨-, m, hexec, hblock⟩ := exec_storeRegisters_cases s ra
  · omega
  obtain ⟨hwf', inside, outside⟩ := hblock hwf
  have hlen := s.regsUpTo_length ra.toNat
  refine ⟨decode_wordXKK_storeRegisters ra, _, hexec, hwf', fun q hq => ?_, fun a ha => outside a (by omega), .withMem s m⟩
  rw [inside q.toNat (by omega), State.regsUpTo_getElem, BitVec.ofNat_toNat, BitVec.setWidth_eq]

/-- Settles O49: with the last address in bounds the load cannot fault. -/
theorem loadRegistersLoadsUpToN : Obligations.LoadRegistersLoadsUpToN := by
  intro s ra hI
  obtain ⟨hout, -⟩ | ⟨-, x, hexec, hread⟩ := exec_loadRegisters_cases s ra
  · omega
  · exact ⟨decode_wordXKK_loadRegisters ra, _, hexec, hread, .withRegs s x⟩

end Sys2Proof.Machine
end

section
/-! Draw (47_draw.md R280 to R284): the sprite by cells, as the sprite unit counts them, is the sprite by columns and
rows. -/

namespace Sys2Proof.Machine

/-- The cell at column c of row r is hit exactly when the sprite puts a set bit there. -/
theorem State.spriteHits_eq_spriteBit (s : State) (ra rb : RegIdx) (n : Nibble) {r c : Nat} (hr : r < 32) (hc : c < 64) :
    s.spriteHits (s.startColumn ra) (s.startRow rb) 0 n.toNat (r * 64 + c) = s.spriteBit ra rb n r c := by
  have hdiv : (r * 64 + c) / 64 = r := by omega
  have hcol : r * 64 + c - (r * 64 + s.startColumn ra) = c - s.startColumn ra := by omega
  have hcovers : ((s.startRow rb + 0 ≤ r ∧ r < s.startRow rb + 0 + n.toNat ∧ r < 32) ∧
      (r * 64 + s.startColumn ra + 0 ≤ r * 64 + c ∧ r * 64 + c < r * 64 + s.startColumn ra + 8 ∧
        r * 64 + c < r * 64 + 64)) ↔
      (s.startRow rb ≤ r ∧ r < s.startRow rb + n.toNat ∧ s.startColumn ra ≤ c ∧ c < s.startColumn ra + 8) := by omega
  rw [State.spriteHits, rowHits, hdiv, hcol, ← Bool.and_assoc, ← Bool.decide_and, decide_eq_decide.mpr hcovers]
  rfl

/-- A collision on some cell is one on some cell of the screen. -/
theorem State.spriteCollides_iff (s : State) (ra rb : RegIdx) (n : Nibble) : s.spriteCollides ra rb n ↔
    ∃ j, s.spriteHits (s.startColumn ra) (s.startRow rb) 0 n.toNat j = true ∧ s.pixel j = true := by
  constructor
  · rintro ⟨r, c, hr, hc, hbit, hp⟩
    exact ⟨_, (s.spriteHits_eq_spriteBit ra rb n hr hc).trans hbit, hp⟩
  · rintro ⟨j, hhit, hp⟩
    have hr : j / 64 < 32 := by
      by_contra hge
      rw [s.pixel_of_ge j (by omega)] at hp
      exact Bool.false_ne_true hp
    have hj : j / 64 * 64 + j % 64 = j := by omega
    refine ⟨j / 64, j % 64, hr, by omega, ?_, by rwa [hj]⟩
    rw [← s.spriteHits_eq_spriteBit ra rb n hr (by omega), hj, hhit]

/-- A Draw of the sprite turns `s` into `t`: the cells it hits are inverted, and VF tells whether one of them was 1. -/
structure SpriteDrawn (ra rb : RegIdx) (n : Nibble) (s t : State) : Prop where
  pixel : ∀ j, t.pixel j = (s.pixel j ^^ s.spriteHits (s.startColumn ra) (s.startRow rb) 0 n.toNat j)
  regs : RegsUnchangedBut [vf] s t
  collided : s.spriteCollides ra rb n → t.readReg vf = 1#8
  missed : ¬ s.spriteCollides ra rb n → t.readReg vf = 0#8

/-- What a Draw can do (R281): fault at the first row on screen that is out of bounds, or draw the sprite. The reset of VF
before the rows is seen by neither the coordinates nor the rows (decision D13). -/
theorem exec_draw_cases (s : State) (ra rb : RegIdx) (n : Nibble) :
    (∃ d, FaultCondition (.draw ra rb n) s .memoryOutOfBounds d ∧
      exec (.draw ra rb n) s = s.raise (.draw ra rb n) .memoryOutOfBounds d) ∨
    ((∀ k, k < n.toNat → s.startRow rb + k < 32 → s.I.toNat + k ≤ 0xFFF) ∧
      ∃ fb x, exec (.draw ra rb n) s = .next { s with fb := fb, x := x } ∧
        SpriteDrawn ra rb n s { s with fb := fb, x := x }) := by
  have hexec : exec (.draw ra rb n) s = execDraw ra rb n s := rfl
  rw [hexec, execDraw, List.range_eq_range']
  obtain ⟨hin, t, hok, ht, hpixel, hregs, hhit, hmiss⟩ | ⟨k, -, hk, hscreen, hout, hfirst, herr⟩ :=
    State.drawRows_cases (s.startColumn ra) (s.startRow rb) n.toNat (s.writeReg vf 0x00#8) 0
  · have ht : t = { s with fb := t.fb, x := t.x } := ht
    refine .inr ⟨fun k hk => hin k (Nat.zero_le k) (by omega), t.fb, t.x, by rw [hok, State.finishAccess, ← ht], ?_⟩
    rw [← ht]
    refine ⟨hpixel, fun q hq => ?_, fun hc => hhit ((s.spriteCollides_iff ra rb n).mp hc),
      fun hc => (hmiss (mt (s.spriteCollides_iff ra rb n).mpr hc)).trans (s.readReg_writeReg_same vf _)⟩
    have hq : q ≠ vf := List.ne_of_not_mem_cons hq
    rw [hregs q hq, State.readReg_writeReg, if_neg hq]
  · exact .inl ⟨_, ⟨rfl, k, by omega, hscreen, hout, fun l => hfirst l (Nat.zero_le l), rfl⟩, by rw [herr]; rfl⟩

/-- Settles O50: with every row on screen in bounds the draw cannot fault, and the cells and the collision of the sprite
unit are those of the sprite by columns and rows. -/
theorem drawXorsTheClippedSprite : Obligations.DrawXorsTheClippedSprite := by
  intro s ra rb n hin
  refine ⟨decode_wordXYN_draw ra rb n, ?_⟩
  obtain ⟨d, ⟨-, k, hk, hscreen, hout, -, -⟩, -⟩ | ⟨-, fb, x, hexec, hdrawn⟩ := exec_draw_cases s ra rb n
  · exact absurd (hin k hk hscreen) (by omega)
  · refine ⟨_, hexec, fun r c hr hc => ?_, hdrawn.collided, hdrawn.missed, hdrawn.regs, .withRegsAndDisplay s x fb⟩
    rw [hdrawn.pixel, s.spriteHits_eq_spriteBit ra rb n hr hc]

end Sys2Proof.Machine
end

section
/-! What executing an instruction can do, said once for all of them (40_step_cycle.md R124; 60_exceptions.md R320): it
raises the fault whose condition holds, or it completes, and then changes only what the tables of writers name. -/

namespace Sys2Proof.Machine

/-- The parts of the state an instruction may change when it completes, the fetch's advance of the pc left out. -/
def partsWritten : Instr → List Part
  | .clearScreen _ => [.display]
  | .ret _ | .call _ => [.pc, .stack]
  | .noOp _ => []
  | .jump _ | .jumpWithOffset _ => [.pc]
  | .skipIfEqualImmediate _ _ | .skipIfNotEqualImmediate _ _ | .skipIfRegistersEqual _ _ _
  | .skipIfRegistersNotEqual _ _ _ | .skipIfKeyPressed _ | .skipIfKeyNotPressed _ => [.pc]
  | .setImmediate _ _ | .addImmediate _ _ | .set _ _ | .or _ _ | .and _ _ | .xor _ _ | .add _ _ | .subtractAB _ _
  | .subtractBA _ _ | .shiftRight _ _ | .shiftLeft _ _ | .readDelay _ | .loadRegisters _ => [.regs]
  | .getKey _ => [.regs, .pc]
  | .random _ _ => [.regs, .draws]
  | .draw _ _ _ => [.regs, .display]
  | .addIndex _ => [.regs, .index]
  | .setIndex _ | .setIndexGlyph _ => [.index]
  | .writeDelay _ => [.delay]
  | .writeSound _ => [.sound]
  | .storeBCD _ | .storeRegisters _ => [.memory]
  | .unrecognized0 _ | .unrecognized8 _ | .unrecognizedE _ | .unrecognizedF _ => []

/-- Instruction `i` completes from `s` in `t`: no row of the fault table applies, and what is not listed for `i` in the
tables of writers is unchanged. -/
structure Completes (i : Instr) (s t : State) : Prop where
  noFault : ∀ kind d, ¬ FaultCondition i s kind d
  parts : UnchangedBut (partsWritten i) s t
  regs : ∀ q, ¬ WritesReg s.params.loadCountField i q → t.readReg q = s.readReg q
  memWf : s.memWf → t.memWf
  bytes : s.memWf → ∀ a, ¬ StoresTo i s a → t.readByte a = s.readByte a

section Shapes
variable {i : Instr} {s : State} (noFault : ∀ kind d, ¬ FaultCondition i s kind d)
include noFault

/-- An instruction that writes neither registers nor memory completes when its parts do. -/
theorem Completes.of_parts {t : State} (parts : UnchangedBut (partsWritten i) s t) (hregs : .regs ∉ partsWritten i)
    (hmem : t.mem = s.mem) (hparams : t.params = s.params) : Completes i s t where
  noFault := noFault
  parts := parts
  regs q _ := parts .regs hregs q
  memWf h := by rwa [State.memWf, hmem, hparams]
  bytes _ a _ := by rw [State.readByte, hmem, hparams]; rfl

/-- An instruction that writes registers, all of them in `rs`, and not memory completes when its parts do. -/
theorem Completes.of_regs {t : State} {rs : List RegIdx} (parts : UnchangedBut (partsWritten i) s t)
    (hregs : RegsUnchangedBut rs s t) (hrs : ∀ q ∈ rs, WritesReg s.params.loadCountField i q) (hmem : t.mem = s.mem)
    (hparams : t.params = s.params) : Completes i s t where
  noFault := noFault
  parts := parts
  regs q hq := hregs q fun h => hq (hrs q h)
  memWf h := by rwa [State.memWf, hmem, hparams]
  bytes _ a _ := by rw [State.readByte, hmem, hparams]; rfl

theorem Completes.setPc (v : Word) (hi : partsWritten i = [.pc]) : Completes i s (s.setPc v) :=
  .of_parts noFault (hi ▸ .setPc s v) (by simp [hi]) rfl rfl

theorem Completes.skipIf (c : Bool) (hi : partsWritten i = [.pc]) : Completes i s (s.skipIf c) := by
  rw [State.skipIf_eq]
  exact .setPc noFault _ hi

theorem Completes.setI (v : Word) (hi : partsWritten i = [.index]) : Completes i s (s.setI v) :=
  .of_parts noFault (hi ▸ .setI s v) (by simp [hi]) rfl rfl

theorem Completes.writeReg (ra : RegIdx) (v : Byte) (hi : partsWritten i = [.regs])
    (hra : WritesReg s.params.loadCountField i ra) : Completes i s (s.writeReg ra v) :=
  .of_regs noFault (hi ▸ .writeReg s ra v) (.writeReg s ra v) (by simpa using hra) rfl rfl

/-- A result and a flag, in either order. -/
theorem Completes.writeReg_writeReg (q r : RegIdx) (v w : Byte) (hi : partsWritten i = [.regs])
    (hq : WritesReg s.params.loadCountField i q) (hr : WritesReg s.params.loadCountField i r) :
    Completes i s ((s.writeReg q v).writeReg r w) :=
  .of_regs noFault (hi ▸ .writeReg_writeReg s q r v w) (.writeReg_writeReg s q r v w) (by simp [hq, hr]) rfl rfl

/-- A block store completes when the table of stores gives it the addresses of the block. -/
theorem Completes.withMem {m : Memory} {vs : List Byte} (hi : partsWritten i = [.memory])
    (hblock : s.memWf → BlockStored s { s with mem := m } s.I.toNat vs)
    (hstores : ∀ a, s.I.toNat ≤ a → a < s.I.toNat + vs.length → StoresTo i s a) : Completes i s { s with mem := m } where
  noFault := noFault
  parts := hi ▸ .withMem s m
  regs _ _ := rfl
  memWf h := (hblock h).memWf
  bytes h a ha := (hblock h).outside a <| by
    by_contra hin
    exact ha (hstores a (by omega) (by omega))

end Shapes

/-- Executing an instruction raises the fault whose condition holds, or completes. -/
theorem exec_cases (i : Instr) (s : State) :
    (∃ kind d, FaultCondition i s kind d ∧ exec i s = s.raise i kind d) ∨ (∃ t, exec i s = .next t ∧ Completes i s t) := by
  cases i with
  | clearScreen z =>
    exact .inr ⟨_, exec_clearScreen s z, .of_parts (fun _ _ => id) (.clearDisplay s) (by simp [partsWritten]) rfl rfl⟩
  | ret z =>
    obtain ⟨hsp, hexec⟩ | ⟨_, _, hsp, hexec⟩ := exec_ret_cases s z
    · exact .inl ⟨_, _, ⟨rfl, rfl, hsp⟩, hexec⟩
    · exact .inr ⟨_, hexec, .of_parts (by rintro _ _ ⟨-, -, h⟩; exact hsp h) (.withStack_setPc s _ _ _)
        (by simp [partsWritten]) rfl rfl⟩
  | noOp z => exact .inr ⟨_, exec_noOp s z, .of_parts (fun _ _ => id) (.refl _ s) (by simp [partsWritten]) rfl rfl⟩
  | jump nnn => exact .inr ⟨_, exec_jump s nnn, .setPc (fun _ _ => id) _ rfl⟩
  | call nnn =>
    obtain ⟨hsp, hexec⟩ | ⟨hlt, _, hexec⟩ := exec_call_cases s nnn
    · exact .inl ⟨_, _, ⟨rfl, rfl, hsp⟩, hexec⟩
    · exact .inr ⟨_, hexec, .of_parts (by rintro _ _ ⟨-, -, h⟩; exact Nat.ne_of_lt hlt h) (.withStack_setPc s _ _ _)
        (by simp [partsWritten]) rfl rfl⟩
  | skipIfEqualImmediate ra kk => exact .inr ⟨_, exec_skipIfEqualImmediate s ra kk, .skipIf (fun _ _ => id) _ rfl⟩
  | skipIfNotEqualImmediate ra kk => exact .inr ⟨_, exec_skipIfNotEqualImmediate s ra kk, .skipIf (fun _ _ => id) _ rfl⟩
  | skipIfRegistersEqual ra rb z => exact .inr ⟨_, exec_skipIfRegistersEqual s ra rb z, .skipIf (fun _ _ => id) _ rfl⟩
  | setImmediate ra kk => exact .inr ⟨_, exec_setImmediate s ra kk, .writeReg (fun _ _ => id) ra _ rfl rfl⟩
  | addImmediate ra kk => exact .inr ⟨_, exec_addImmediate s ra kk, .writeReg (fun _ _ => id) ra _ rfl rfl⟩
  | set ra rb => exact .inr ⟨_, exec_set s ra rb, .writeReg (fun _ _ => id) ra _ rfl rfl⟩
  | or ra rb => exact .inr ⟨_, exec_or s ra rb, .writeReg (fun _ _ => id) ra _ rfl rfl⟩
  | and ra rb => exact .inr ⟨_, exec_and s ra rb, .writeReg (fun _ _ => id) ra _ rfl rfl⟩
  | xor ra rb => exact .inr ⟨_, exec_xor s ra rb, .writeReg (fun _ _ => id) ra _ rfl rfl⟩
  | add ra rb =>
    exact .inr ⟨_, exec_add s ra rb, .writeReg_writeReg (fun _ _ => id) ra vf _ _ rfl (.inl rfl) (.inr rfl)⟩
  | subtractAB ra rb =>
    exact .inr ⟨_, exec_subtractAB s ra rb, .writeReg_writeReg (fun _ _ => id) ra vf _ _ rfl (.inl rfl) (.inr rfl)⟩
  | subtractBA ra rb =>
    exact .inr ⟨_, exec_subtractBA s ra rb, .writeReg_writeReg (fun _ _ => id) ra vf _ _ rfl (.inl rfl) (.inr rfl)⟩
  | shiftRight ra rb =>
    exact .inr ⟨_, exec_shiftRight s ra rb, .writeReg_writeReg (fun _ _ => id) vf ra _ _ rfl (.inr rfl) (.inl rfl)⟩
  | shiftLeft ra rb =>
    exact .inr ⟨_, exec_shiftLeft s ra rb, .writeReg_writeReg (fun _ _ => id) vf ra _ _ rfl (.inr rfl) (.inl rfl)⟩
  | skipIfRegistersNotEqual ra rb z =>
    exact .inr ⟨_, exec_skipIfRegistersNotEqual s ra rb z, .skipIf (fun _ _ => id) _ rfl⟩
  | setIndex nnn => exact .inr ⟨_, exec_setIndex s nnn, .setI (fun _ _ => id) _ rfl⟩
  | jumpWithOffset nnn => exact .inr ⟨_, exec_jumpWithOffset s nnn, .setPc (fun _ _ => id) _ rfl⟩
  | random ra kk =>
    exact .inr ⟨_, exec_random s ra kk, .of_regs (fun _ _ => id) (.drawRandom_writeReg s ra _)
      (.writeReg s.drawRandom.2 ra _) (by simp [WritesReg]) rfl rfl⟩
  | draw ra rb n =>
    obtain ⟨d, hcond, hexec⟩ | ⟨hin, fb, x, hexec, hdrawn⟩ := exec_draw_cases s ra rb n
    · exact .inl ⟨_, d, hcond, hexec⟩
    · refine .inr ⟨_, hexec, .of_regs ?_ (.withRegsAndDisplay s x fb) hdrawn.regs (by simp [WritesReg]) rfl rfl⟩
      rintro _ _ ⟨-, k, hk, hscreen, hout, -, -⟩
      exact absurd (hin k hk hscreen) (by omega)
  | skipIfKeyPressed ra => exact .inr ⟨_, exec_skipIfKeyPressed s ra, .skipIf (fun _ _ => id) _ rfl⟩
  | skipIfKeyNotPressed ra => exact .inr ⟨_, exec_skipIfKeyNotPressed s ra, .skipIf (fun _ _ => id) _ rfl⟩
  | readDelay ra => exact .inr ⟨_, exec_readDelay s ra, .writeReg (fun _ _ => id) ra _ rfl rfl⟩
  | getKey ra =>
    obtain ⟨k, -, hk, hbelow⟩ | ⟨-, hnone⟩ := s.firstPressed_cases
    · exact .inr ⟨_, exec_getKey_of_lowest ra hk hbelow, .of_regs (fun _ _ => id)
        ((UnchangedBut.writeReg s ra _).mono (by simp [partsWritten])) (.writeReg s ra _) (by simp [WritesReg]) rfl rfl⟩
    · exact .inr ⟨_, exec_getKey_of_none ra hnone, .of_regs (rs := []) (fun _ _ => id)
        ((UnchangedBut.setPc s _).mono (by simp [partsWritten])) (fun _ _ => rfl) (by simp) rfl rfl⟩
  | writeDelay ra =>
    exact .inr ⟨_, exec_writeDelay s ra, .of_parts (fun _ _ => id) (.setDT s _) (by simp [partsWritten]) rfl rfl⟩
  | writeSound ra =>
    exact .inr ⟨_, exec_writeSound s ra, .of_parts (fun _ _ => id) (.setST s _) (by simp [partsWritten]) rfl rfl⟩
  | addIndex ra =>
    refine .inr ⟨_, exec_addIndex s ra, ?_⟩
    split
    · exact .of_regs (fun _ _ => id) (.setI_writeReg s _ vf _) (.writeReg (s.setI _) vf _) (by simp [WritesReg]) rfl rfl
    · exact .of_regs (rs := []) (fun _ _ => id) ((UnchangedBut.setI s _).mono (by simp [partsWritten]))
        (fun _ _ => rfl) (by simp) rfl rfl
  | setIndexGlyph ra => exact .inr ⟨_, exec_setIndexGlyph s ra, .setI (fun _ _ => id) _ rfl⟩
  | storeBCD ra =>
    obtain ⟨hout, hexec⟩ | ⟨hin, m, hexec, hblock⟩ := exec_storeBCD_cases s ra
    · exact .inl ⟨_, _, ⟨rfl, rfl, hout⟩, hexec⟩
    · have hlen : (bcdDigits (s.readReg ra)).length = 3 := rfl
      exact .inr ⟨_, hexec, .withMem (by rintro _ _ ⟨-, -, h⟩; exact Nat.not_lt.mpr hin h) rfl hblock
        fun a hlo hhi => ⟨hlo, by omega⟩⟩
  | storeRegisters ra =>
    obtain ⟨hout, hexec⟩ | ⟨hin, m, hexec, hblock⟩ := exec_storeRegisters_cases s ra
    · exact .inl ⟨_, _, ⟨rfl, rfl, hout⟩, hexec⟩
    · have hlen := s.regsUpTo_length ra.toNat
      exact .inr ⟨_, hexec, .withMem (by rintro _ _ ⟨-, -, h⟩; exact Nat.not_lt.mpr hin h) rfl hblock
        fun a hlo hhi => ⟨hlo, by omega⟩⟩
  | loadRegisters ra =>
    obtain ⟨hout, hexec⟩ | ⟨hin, x, hexec, hread⟩ := exec_loadRegisters_cases s ra
    · exact .inl ⟨_, _, ⟨rfl, rfl, hout⟩, hexec⟩
    · exact .inr ⟨_, hexec,
        { noFault := by rintro _ _ ⟨-, -, h⟩; exact Nat.not_lt.mpr hin h
          parts := .withRegs s x
          regs := fun q hq => (hread q).trans (if_neg hq)
          memWf := id
          bytes := fun _ _ _ => rfl }⟩
  | unrecognized0 raw | unrecognized8 raw | unrecognizedE raw | unrecognizedF raw =>
    exact .inl ⟨_, _, ⟨rfl, rfl⟩, exec_of_isUnrecognized rfl s⟩

end Sys2Proof.Machine
end

section
/-! What a step can do, said once (40_step_cycle.md R120; 60_exceptions.md R326): raise a fault, which changes the fault
status alone, or complete the instruction at the pc. -/

namespace Sys2Proof.Machine

theorem step_of_fault {s : State} {r : FaultRecord} (hf : s.fault = some r) : step s = .fault (.halted r) := by
  unfold step
  rw [hf]

theorem step_of_fetch_out_of_bounds {s : State} (hf : s.fault = none) (hp : 0x0FFE < s.pc.toNat) :
    step s = .next s.takeFetchFault := by
  unfold step
  rw [hf, s.fetch_of_gt hp]

/-- The raw bytes of the instruction at the pc are the two bytes there (R321). -/
theorem State.currentInstr_bytes (s : State) :
    s.currentInstr.bytes = (s.readByte s.pc.toNat, s.readByte (s.pc.toNat + 1)) := by
  rw [Instr.bytes, State.currentInstr, encode_decode, State.wordAt, byte0Of_wordOfBytes, byte1Of_wordOfBytes]

/-- A fault raised after the fetch's advance undoes the advance (R326). -/
theorem State.advancePc_raise (s : State) (i : Instr) (kind : FaultKind) (d : Option Nat) :
    s.advancePc.raise i kind d =
      .next { s with fault := some { kind := kind, addr := s.pc, bytes := some i.bytes, dataAddr := d } } := by
  rw [State.raise_eq, State.advancePc_pc, BitVec.add_sub_cancel]
  rfl

/-- The rows of the fault table for an instruction: MemoryOutOfBounds with a data address out of bounds, or another of
the executor's faults with none (R320, R321). -/
theorem FaultCondition.kind_dataAddr {i : Instr} {s : State} {kind : FaultKind} {d : Option Nat}
    (h : FaultCondition i s kind d) :
    (kind = .memoryOutOfBounds ∧ ∃ ea, d = some ea ∧ 0xFFF < ea) ∨
    (d = none ∧ (kind = .unrecognizedInstruction ∨ kind = .stackOverflow ∨ kind = .stackUnderflow)) := by
  cases i with
  | unrecognized0 | unrecognized8 | unrecognizedE | unrecognizedF =>
    obtain ⟨hkind, hd⟩ := h
    exact .inr ⟨hd, .inl hkind⟩
  | call =>
    obtain ⟨hkind, hd, -⟩ := h
    exact .inr ⟨hd, .inr (.inl hkind)⟩
  | ret =>
    obtain ⟨hkind, hd, -⟩ := h
    exact .inr ⟨hd, .inr (.inr hkind)⟩
  | storeBCD | storeRegisters | loadRegisters =>
    obtain ⟨hkind, hd, -⟩ := h
    exact .inl ⟨hkind, _, hd, by omega⟩
  | draw =>
    obtain ⟨hkind, k, -, -, hout, -, hd⟩ := h
    exact .inl ⟨hkind, _, hd, hout⟩
  | _ => exact h.elim

/-- At most one row of the fault table applies, with one data address: the first one out of bounds. -/
theorem FaultCondition.unique {i : Instr} {s : State} {kind kind' : FaultKind} {d d' : Option Nat}
    (h : FaultCondition i s kind d) (h' : FaultCondition i s kind' d') : kind = kind' ∧ d = d' := by
  cases i with
  | unrecognized0 | unrecognized8 | unrecognizedE | unrecognizedF =>
    obtain ⟨hkind, hd⟩ := h
    obtain ⟨hkind', hd'⟩ := h'
    exact ⟨hkind.trans hkind'.symm, hd.trans hd'.symm⟩
  | call | ret | storeBCD | storeRegisters | loadRegisters =>
    obtain ⟨hkind, hd, -⟩ := h
    obtain ⟨hkind', hd', -⟩ := h'
    exact ⟨hkind.trans hkind'.symm, hd.trans hd'.symm⟩
  | draw =>
    obtain ⟨hkind, k, -, -, hout, hfirst, hd⟩ := h
    obtain ⟨hkind', k', -, -, hout', hfirst', hd'⟩ := h'
    have hk : ¬ k < k' := fun hlt => absurd (hfirst' k hlt) (by omega)
    have hk' : ¬ k' < k := fun hlt => absurd (hfirst k' hlt) (by omega)
    exact ⟨hkind.trans hkind'.symm, by rw [hd, hd', show k = k' by omega]⟩
  | _ => exact h.elim

/-- `r` is the record of a fault that the step from `s` raises (R321). -/
structure FaultsWith (s : State) (r : FaultRecord) : Prop where
  wf : r.wf
  addr : r.addr = s.pc
  bytes : s.pc.toNat ≤ 0x0FFE → r.bytes = some (s.readByte s.pc.toNat, s.readByte (s.pc.toNat + 1))
  noBytes : 0x0FFE < s.pc.toNat → r.bytes = none

theorem FaultsWith.of_fetch {s : State} (hp : 0x0FFE < s.pc.toNat) :
    FaultsWith s { kind := .fetchOutOfBounds, addr := s.pc, bytes := none, dataAddr := none } where
  wf := ⟨iff_of_true rfl rfl, nofun, nofun, iff_of_true rfl hp⟩
  addr := rfl
  bytes h := absurd h (by omega)
  noBytes _ := rfl

theorem FaultsWith.of_faultCondition {i : Instr} {s u : State} {kind : FaultKind} {d : Option Nat}
    (h : FaultCondition i u kind d) (hp : s.pc.toNat ≤ 0x0FFE) :
    FaultsWith s { kind := kind, addr := s.pc, bytes := some s.currentInstr.bytes, dataAddr := d } where
  wf := by
    have hp' : ¬ 0x0FFE < s.pc.toNat := by omega
    obtain ⟨rfl, ea, rfl, hea⟩ | ⟨rfl, hkind⟩ := h.kind_dataAddr
    · simp [FaultRecord.wf, hp', hea]
    · obtain rfl | rfl | rfl := hkind <;> simp [FaultRecord.wf, hp']
  addr := rfl
  bytes _ := by rw [State.currentInstr_bytes]
  noBytes h := absurd h (by omega)

/-- What a step that answers a next state did: no fault was set, and it raised one and changed the fault status alone, or
the pc was in bounds and the instruction there completed from the state with the pc past it. -/
theorem step_next_cases {s t : State} (h : step s = .next t) :
    s.fault = none ∧
    ((∃ r, FaultsWith s r ∧ t = { s with fault := some r }) ∨
      (s.pc.toNat ≤ 0x0FFE ∧ exec s.currentInstr s.advancePc = .next t ∧ Completes s.currentInstr s.advancePc t)) := by
  obtain ⟨hf, ⟨hp, rfl⟩ | ⟨hp, hexec⟩⟩ := step_cases h
  · exact ⟨hf, .inl ⟨_, .of_fetch hp, rfl⟩⟩
  · refine ⟨hf, ?_⟩
    obtain ⟨kind, d, hcond, hraise⟩ | ⟨u, hexec', hcompletes⟩ := exec_cases s.currentInstr s.advancePc
    · rw [hraise, State.advancePc_raise] at hexec
      exact .inl ⟨_, .of_faultCondition hcond hp, (Host.Outcome.next.inj hexec).symm⟩
    · obtain rfl : u = t := Host.Outcome.next.inj (hexec'.symm.trans hexec)
      exact .inr ⟨hp, hexec, hcompletes⟩

/-! What no instruction writes, and which one writes a part that few write -/

theorem fault_not_mem_partsWritten (i : Instr) : .fault ∉ partsWritten i := by cases i <;> simp [partsWritten]

theorem keys_not_mem_partsWritten (i : Instr) : .keys ∉ partsWritten i := by cases i <;> simp [partsWritten]

theorem params_not_mem_partsWritten (i : Instr) : .params ∉ partsWritten i := by cases i <;> simp [partsWritten]

theorem delay_mem_partsWritten {i : Instr} (h : .delay ∈ partsWritten i) : ∃ ra, i = .writeDelay ra := by
  cases i <;> simp [partsWritten] at h ⊢

theorem sound_mem_partsWritten {i : Instr} (h : .sound ∈ partsWritten i) : ∃ ra, i = .writeSound ra := by
  cases i <;> simp [partsWritten] at h ⊢

theorem display_mem_partsWritten {i : Instr} (h : .display ∈ partsWritten i) :
    (∃ z, i = .clearScreen z) ∨ ∃ ra rb n, i = .draw ra rb n := by
  cases i <;> simp [partsWritten] at h ⊢

theorem stack_mem_partsWritten {i : Instr} (h : .stack ∈ partsWritten i) : (∃ nnn, i = .call nnn) ∨ ∃ z, i = .ret z := by
  cases i <;> simp [partsWritten] at h ⊢

theorem index_mem_partsWritten {i : Instr} (h : .index ∈ partsWritten i) :
    (∃ nnn, i = .setIndex nnn) ∨ (∃ ra, i = .addIndex ra) ∨ ∃ ra, i = .setIndexGlyph ra := by
  cases i <;> simp [partsWritten] at h ⊢

/-- A part that changed is one the instruction writes. -/
theorem Completes.part_mem {i : Instr} {s t : State} (h : Completes i s t) {p : Part} (hp : ¬ p.same s t) :
    p ∈ partsWritten i := by
  by_contra hmem
  exact hp (h.parts p hmem)

/-- An instruction that completes raises no fault. -/
theorem Completes.fault {i : Instr} {s t : State} (h : Completes i s t) : t.fault = s.fault :=
  h.parts .fault (fault_not_mem_partsWritten i)

theorem Part.same_keys_iff {s t : State} : Part.same s t .keys ↔ t.keys = s.keys := by
  constructor
  · intro h
    ext k hk
    have := h (BitVec.ofNat 4 k)
    simp only [State.keyPressed, BitVec.toNat_ofNat] at this
    simpa only [Nat.mod_eq_of_lt hk] using this
  · intro h k
    rw [State.keyPressed, h]
    rfl

end Sys2Proof.Machine
end

section
/-! The step: when it answers what, and what it leaves unchanged (40_step_cycle.md, 60_exceptions.md section 2). -/

namespace Sys2Proof.Machine

/-- Settles O9: the fetch is tested first, and taking its fault leaves the pc where it was. -/
theorem fetchOutOfBoundsFaultsAtTheFetch : Obligations.FetchOutOfBoundsFaultsAtTheFetch :=
  fun _ hf hp => step_of_fetch_out_of_bounds hf hp

theorem State.hostMove_fault (s : State) (m : HostMove) : (s.hostMove m).fault = s.fault := by
  cases m <;> rfl

/-- Settles O10: the fault status is tested before anything else, and no host move writes it. -/
theorem haltedMachineHasNoStep : Obligations.HaltedMachineHasNoStep := fun s _ hf =>
  ⟨step_of_fault hf, fun m => ⟨(s.hostMove_fault m).trans hf, step_of_fault ((s.hostMove_fault m).trans hf)⟩⟩

theorem exec_eq_next (i : Instr) (s : State) : ∃ t, exec i s = .next t := by
  obtain ⟨_, _, -, hexec⟩ | ⟨t, hexec, -⟩ := exec_cases i s
  · exact ⟨_, hexec⟩
  · exact ⟨t, hexec⟩

/-- Settles O11: an instruction completes or raises, both of which are next states, and so is the fetch's fault. -/
theorem everyUnhaltedStepCompletes : Obligations.EveryUnhaltedStepCompletes := by
  refine ⟨exec_eq_next, fun s hf => ?_⟩
  rcases Nat.lt_or_ge 0x0FFE s.pc.toNat with hp | hp
  · exact ⟨_, step_of_fetch_out_of_bounds hf hp⟩
  · rw [step_eq_exec_currentInstr hf hp]
    exact exec_eq_next _ _

/-- Settles O13: a step that completes leaves the fault status clear, so the step raised the fault. -/
theorem faultingStepChangesOnlyTheFaultStatus : Obligations.FaultingStepChangesOnlyTheFaultStatus := by
  intro s t r hstep hr
  obtain ⟨hf, ⟨r', hfaults, rfl⟩ | ⟨-, -, hcompletes⟩⟩ := step_next_cases hstep
  · obtain rfl : r' = r := Option.some.inj hr
    exact ⟨rfl, hfaults.addr, hfaults.bytes, hfaults.noBytes⟩
  · rw [hcompletes.fault, State.advancePc_fault, hf] at hr
    cases hr

/-- Settles O14: an instruction raises its fault with the kind and data address of the row that applies, and no other row
does; or it completes, with no fault set and no row applying. -/
theorem instructionsRaiseExactlyTheirFaults : Obligations.InstructionsRaiseExactlyTheirFaults := by
  intro i s t hf hexec kind d
  obtain ⟨kind', d', hcond, hraise⟩ | ⟨u, hexec', hcompletes⟩ := exec_cases i s
  · obtain rfl : _ = t := Host.Outcome.next.inj (hraise.symm.trans hexec)
    constructor
    · rintro ⟨r, hr, rfl, rfl⟩
      obtain rfl : _ = r := Option.some.inj hr
      exact hcond
    · intro h
      obtain ⟨rfl, rfl⟩ := hcond.unique h
      exact ⟨_, rfl, rfl, rfl⟩
  · obtain rfl : u = t := Host.Outcome.next.inj (hexec'.symm.trans hexec)
    refine iff_of_false ?_ (hcompletes.noFault kind d)
    rintro ⟨r, hr, -, -⟩
    rw [hcompletes.fault, hf] at hr
    cases hr

/-- Settles O19: no instruction writes keys or parameters, and each timer is written by one instruction, which copies
x[rA] to it. -/
theorem stepNeverDecrementsTimersNorWritesKeys : Obligations.StepNeverDecrementsTimersNorWritesKeys := by
  intro s t hstep
  obtain ⟨-, ⟨r, -, rfl⟩ | ⟨-, hexec, hcompletes⟩⟩ := step_next_cases hstep
  · exact ⟨rfl, rfl, fun h => absurd rfl h, fun h => absurd rfl h⟩
  · refine ⟨Part.same_keys_iff.mp (hcompletes.parts .keys (keys_not_mem_partsWritten _)),
      hcompletes.parts .params (params_not_mem_partsWritten _), fun hDT => ?_, fun hST => ?_⟩
    · obtain ⟨ra, hi⟩ := delay_mem_partsWritten (hcompletes.part_mem (p := .delay) hDT)
      rw [hi, exec_writeDelay] at hexec
      exact ⟨ra, hi, by rw [← Host.Outcome.next.inj hexec]; rfl⟩
    · obtain ⟨ra, hi⟩ := sound_mem_partsWritten (hcompletes.part_mem (p := .sound) hST)
      rw [hi, exec_writeSound] at hexec
      exact ⟨ra, hi, by rw [← Host.Outcome.next.inj hexec]; rfl⟩

/-- Settles O20: a fault leaves the display, and two instructions write it. -/
theorem onlyClearScreenAndDrawChangeTheDisplay : Obligations.OnlyClearScreenAndDrawChangeTheDisplay := by
  rintro s t hstep ⟨j, hj⟩
  obtain ⟨-, ⟨r, -, rfl⟩ | ⟨-, -, hcompletes⟩⟩ := step_next_cases hstep
  · exact absurd rfl hj
  · exact display_mem_partsWritten (hcompletes.part_mem (p := .display) fun h => hj (h j))

/-- The advance of the pc moves no address an instruction stores to. -/
theorem StoresTo.of_advancePc {i : Instr} {s : State} {a : Nat} (h : StoresTo i s.advancePc a) : StoresTo i s a := by
  cases i <;> exact h

/-- Settles O21: a fault leaves memory, and a completed instruction changes the bytes of its stores alone. -/
theorem onlyTheStoresChangeMemory : Obligations.OnlyTheStoresChangeMemory := by
  intro s t a hwf hstep ha
  obtain ⟨-, ⟨r, -, rfl⟩ | ⟨-, -, hcompletes⟩⟩ := step_next_cases hstep
  · exact absurd rfl ha
  · by_contra hno
    exact ha (hcompletes.bytes hwf a fun h => hno h.of_advancePc)

/-- Settles O22: a fault leaves the registers, and a completed instruction changes those the table names alone. -/
theorem onlyTheNamedRegistersChange : Obligations.OnlyTheNamedRegistersChange := by
  intro s t q hstep hq
  obtain ⟨-, ⟨r, -, rfl⟩ | ⟨-, -, hcompletes⟩⟩ := step_next_cases hstep
  · exact absurd rfl hq
  · by_contra hno
    exact hq (hcompletes.regs q hno)

/-- A Return keeps every stack entry, popped or not. -/
theorem exec_ret_stack {s t : State} {z : Nibble} (h : exec (.ret z) s = .next t) : t.stack = s.stack := by
  obtain ⟨-, hexec⟩ | ⟨_, _, -, hexec⟩ := exec_ret_cases s z <;>
  · rw [hexec] at h
    rw [← Host.Outcome.next.inj h]
    rfl

/-- Settles O23: a fault leaves the stack and I; two instructions write the stack, of which Return keeps the entries, and
three write I. -/
theorem onlyTheNamedInstructionsChangeStackAndIndex : Obligations.OnlyTheNamedInstructionsChangeStackAndIndex := by
  intro s t hstep
  obtain ⟨-, ⟨r, -, rfl⟩ | ⟨-, hexec, hcompletes⟩⟩ := step_next_cases hstep
  · exact ⟨fun h => h.elim (absurd rfl) (absurd rfl), absurd rfl, absurd rfl⟩
  · have hwriter (h : t.sp ≠ s.sp ∨ t.stack ≠ s.stack) :=
      stack_mem_partsWritten (hcompletes.part_mem (p := .stack) fun hsame => h.elim (absurd hsame.1) (absurd hsame.2))
    refine ⟨hwriter, fun h => ?_, fun h => index_mem_partsWritten (hcompletes.part_mem (p := .index) h)⟩
    obtain hcall | ⟨z, hret⟩ := hwriter (.inr h)
    · exact hcall
    · rw [hret] at hexec
      exact absurd (exec_ret_stack hexec) h

end Sys2Proof.Machine
end

section
/-! The pc after a step (40_step_cycle.md R129). -/

namespace Sys2Proof.Machine

theorem State.advancePc_skipIf_pc (s : State) (c : Bool) :
    (s.advancePc.skipIf c).pc = if c = true then s.pc + 4#16 else s.pc + 2#16 := by
  rw [State.skipIf_pc, State.advancePc_pc, BitVec.add_assoc]
  rfl

theorem lowNibble_eq_setWidth (v : Byte) : lowNibble v = v.setWidth 4 :=
  BitVec.eq_of_toNat_eq ((lowNibble_toNat v).trans (BitVec.toNat_setWidth 4 v).symm)

/-- The pc that a completed instruction leaves: the instructions that write it leave their target, and the others the
advanced pc. -/
theorem Completes.pc {i : Instr} {s t : State} (hexec : exec i s.advancePc = .next t) (hc : Completes i s.advancePc t) :
    t.pc = s.pcAfter i := by
  cases i with
  | jump | jumpWithOffset => cases hexec; rfl
  | call nnn =>
    obtain ⟨hsp, -⟩ | ⟨_, _, hcall⟩ := exec_call_cases s.advancePc nnn
    · exact absurd ⟨rfl, rfl, hsp⟩ (hc.noFault .stackOverflow none)
    · rw [← Host.Outcome.next.inj (hcall.symm.trans hexec)]
      rfl
  | ret z =>
    obtain ⟨hsp, -⟩ | ⟨hlt, _, -, hret⟩ := exec_ret_cases s.advancePc z
    · exact absurd ⟨rfl, rfl, hsp⟩ (hc.noFault .stackUnderflow none)
    · rw [← Host.Outcome.next.inj (hret.symm.trans hexec), State.pcAfter,
        List.getD_eq_getElem _ _ (by rw [Vector.length_toList]; exact hlt), Vector.getElem_toList]
      rfl
  | skipIfEqualImmediate ra kk =>
    cases hexec
    simp only [State.advancePc_skipIf_pc, State.pcAfter, beq_iff_eq, State.advancePc_readReg]
  | skipIfNotEqualImmediate ra kk =>
    cases hexec
    simp only [State.advancePc_skipIf_pc, State.pcAfter, bne_iff_ne, State.advancePc_readReg]
  | skipIfRegistersEqual ra rb z =>
    cases hexec
    simp only [State.advancePc_skipIf_pc, State.pcAfter, beq_iff_eq, State.advancePc_readReg]
  | skipIfRegistersNotEqual ra rb z =>
    cases hexec
    simp only [State.advancePc_skipIf_pc, State.pcAfter, bne_iff_ne, State.advancePc_readReg]
  | skipIfKeyPressed ra =>
    cases hexec
    simp only [State.advancePc_skipIf_pc, State.pcAfter, lowNibble_eq_setWidth, State.advancePc_readReg,
      State.advancePc_keyPressed]
  | skipIfKeyNotPressed ra =>
    cases hexec
    simp only [State.advancePc_skipIf_pc, State.pcAfter, lowNibble_eq_setWidth, State.advancePc_readReg,
      State.advancePc_keyPressed, Bool.not_eq_true']
  | getKey ra =>
    obtain ⟨k, -, hk, hbelow⟩ | ⟨-, hnone⟩ := s.advancePc.firstPressed_cases
    · rw [exec_getKey_of_lowest ra hk hbelow] at hexec
      rw [← Host.Outcome.next.inj hexec, State.pcAfter, if_pos ⟨k, hk⟩]
      rfl
    · rw [exec_getKey_of_none ra hnone] at hexec
      have hno : ¬ ∃ k, s.keyPressed k = true := fun ⟨k, hk⟩ => Bool.false_ne_true ((hnone k).symm.trans hk)
      rw [← Host.Outcome.next.inj hexec, State.pcAfter, if_neg hno, State.rewindPc_pc, State.advancePc_pc,
        BitVec.add_sub_cancel]
  | _ => exact hc.parts .pc (by simp [partsWritten])

/-- Settles O12: a step whose fault status stays clear completed its instruction. -/
theorem pcAfterAStep : Obligations.PcAfterAStep := by
  intro s t hstep hf
  obtain ⟨-, ⟨r, -, rfl⟩ | ⟨-, hexec, hcompletes⟩⟩ := step_next_cases hstep
  · cases hf
  · exact hcompletes.pc hexec

end Sys2Proof.Machine
end

section
/-! Programs and the host (60_exceptions.md section 7; 70_reset_and_hazards.md): the reset state, the load, the host moves,
the word placed at the pc, and the self-jump. -/

namespace Sys2Proof.Machine

@[simp] theorem State.resetWith_keyPressed (p : Params) (k : BitVec 4) : (State.resetWith p).keyPressed k = false :=
  Vector.getElem_replicate ..

/-- Settles O54: the decided fields of `new()` are what it sets them to; the glyph of A is read from the default table. -/
theorem newLeavesPcKeysAndFaultAsDecided : Obligations.NewLeavesPcKeysAndFaultAsDecided :=
  ⟨fun p => ⟨rfl, State.resetWith_keyPressed p, rfl⟩, rfl, rfl, by decide⟩

/-! The load -/

/-- A copy that fits in memory is a block store that cannot fail. -/
theorem State.storeBytes_eq_copyIn (s : State) (ea : Nat) (vs : List Byte) (hfits : ea + vs.length ≤ 0x1000) :
    s.storeBytes ea vs = .ok (s.copyIn ea vs) := by
  induction vs generalizing s ea with
  | nil => rfl
  | cons v vs ih =>
    rw [List.length_cons] at hfits
    obtain ⟨-, hw⟩ | ⟨hout, -⟩ := s.memWrite_cases ea v
    · simp only [State.storeBytes, hw, State.copyIn]
      exact ih _ _ (by omega)
    · omega

/-- A load that is accepted stores the program as one block and sets the pc (R362). -/
theorem State.load_of_fits (s : State) {bytes : List Byte} (h : bytes.length ≤ 3584) :
    ∃ m, s.load bytes = .accepted ({ s with mem := m }.setPc 0x0200#16) ∧
      (s.memWf → BlockStored s { s with mem := m } 0x200 bytes) := by
  have hfits : 0x200 + bytes.length ≤ 0x1000 := by omega
  obtain ⟨m, hok, hblock⟩ := s.storeBytes_of_fits (.inr hfits)
  rw [s.storeBytes_eq_copyIn _ _ hfits] at hok
  exact ⟨m, by rw [State.load, if_neg (by omega), Except.ok.inj hok], hblock⟩

theorem State.load_of_too_large (s : State) {bytes : List Byte} (h : 3584 < bytes.length) :
    s.load bytes = .rejected .loadTooLarge := if_pos h

/-- Settles O55: a program that fits is stored as one block at 0x200, and a longer one is rejected unread. -/
theorem loadPlacesTheProgramOrRejectsIt : Obligations.LoadPlacesTheProgramOrRejectsIt := by
  intro s bytes hwf
  refine ⟨fun h => ?_, s.load_of_too_large⟩
  obtain ⟨m, hload, hblock⟩ := s.load_of_fits h
  obtain ⟨hwf', inside, outside⟩ := hblock hwf
  refine ⟨_, hload, hwf', rfl, fun a => ?_,
    ((UnchangedBut.withMem s m).mono (by simp)).trans ((UnchangedBut.setPc _ _).mono (by simp))⟩
  rw [State.setPc_readByte]
  by_cases ha : 0x200 ≤ a ∧ a < 0x200 + bytes.length
  · obtain ⟨k, rfl⟩ := Nat.exists_eq_add_of_le ha.1
    rw [if_pos ha, Nat.add_sub_cancel_left, List.getD_eq_getElem _ _ (by omega), inside k (by omega)]
  · rw [if_neg ha, outside a (by omega)]

/-! Host moves -/

theorem decremented_toNat (t : Byte) : (decremented t).toNat = t.toNat - 1 := by
  unfold decremented
  split
  · next h => rw [h]; rfl
  · next h =>
    have hpos : t.toNat ≠ 0 := fun h0 => h (BitVec.eq_of_toNat_eq h0)
    have hlt := t.isLt
    rw [BitVec.toNat_sub, BitVec.toNat_ofNat]
    omega

/-- Settles O56: a decrement sets one timer to the decremented value, and `set_key` writes one key. -/
theorem hostMovesDoOneThingEach : Obligations.HostMovesDoOneThingEach := by
  intro s
  refine ⟨⟨decremented_toNat s.DT, .setDT s _⟩, ⟨decremented_toNat s.ST, .setST s _⟩, fun k l v => ⟨?_, .writeKey s k _⟩⟩
  rw [State.hostMove, State.setKey, State.keyPressed_writeKey]
  by_cases h : l = k
  · rw [if_pos h, if_pos h, bne_iff_ne]
  · rw [if_neg h, if_neg h]

/-! The placed word and the self-jump -/

/-- The word placed at a pc in bounds is the one at the pc. -/
theorem State.wordAt_placeWord (s : State) (w : Word) (hwf : s.memWf) (hp : s.pc.toNat ≤ 0x0FFE) :
    (s.placeWord w).wordAt s.pc.toNat = w := by
  have hsorted := Memory.sorted_write (resetByte s.params) s.mem s.pc.toNat (byte0Of w) hwf.1
  rw [State.placeWord, if_pos hp, State.wordAt, State.readByte_writeByte (s.writeByte _ _) _ _ _ hsorted,
    State.readByte_writeByte (s.writeByte _ _) _ _ _ hsorted, State.readByte_writeByte _ _ _ _ hwf.1,
    if_neg (by omega), if_pos rfl, if_pos rfl, wordOfBytes_bytes]

/-- Placing a word changes memory alone. -/
theorem State.placeWord_pc_fault (s : State) (w : Word) : (s.placeWord w).pc = s.pc ∧ (s.placeWord w).fault = s.fault := by
  unfold State.placeWord
  split <;> exact ⟨rfl, rfl⟩

theorem decodeTableWord_of_fits {nbits w : Nat} (hn : nbits ≤ 16) (hw : w < 2 ^ 16) :
    decodeTableWord nbits w = some (decode (BitVec.ofNat 16 w)) := by
  rw [decodeTableWord, if_pos ⟨hn, hw⟩, decodeBytes, wordOfBytes_bytes]

/-- Settles O27: the two bytes stored at the pc read back as the word, which is therefore the one at the pc. -/
theorem placedWordIsTheOneExecuted : Obligations.PlacedWordIsTheOneExecuted := by
  intro s nbits w hwf hf hp hn hw
  refine ⟨decodeTableWord_of_fits hn hw, ?_⟩
  rw [State.withFetchWord]
  obtain ⟨hpc, hfault⟩ := s.placeWord_pc_fault (BitVec.ofNat 16 w)
  rw [step_eq_exec_currentInstr (hfault.trans hf) (by rwa [hpc]), State.currentInstr, hpc, s.wordAt_placeWord _ hwf hp,
    State.advancePc, hpc]
  rfl

/-- Settles O26: the jump overwrites the advanced pc with the pc the step began at. -/
theorem selfJumpLeavesTheStateUnchanged : Obligations.SelfJumpLeavesTheStateUnchanged := by
  intro s nnn hf hpc hp hi
  have hback : s.advancePc.setPc (zext16OfAddr nnn) = s := congrArg s.setPc hpc.symm
  rw [step_eq_exec_currentInstr hf hp, hi, exec_jump, hback]

/-- Settles O6: the six operations do not use the bits; Return uses them only to raise its underflow, which a stack that
is not empty rules out. -/
theorem ignoredBitsChangeNothing : Obligations.IgnoredBitsChangeNothing := by
  intro s z z' ra rb rb'
  refine ⟨rfl, rfl, rfl, rfl, rfl, rfl, fun hsp => ?_⟩
  obtain ⟨h0, -⟩ | ⟨_, _, -, hexec⟩ := exec_ret_cases s z
  · exact absurd h0 hsp
  obtain ⟨h0, -⟩ | ⟨_, _, -, hexec'⟩ := exec_ret_cases s z'
  · exact absurd h0 hsp
  rw [hexec, hexec']

end Sys2Proof.Machine
end

section
/-! The invariant (10_state.md R26, R27; 60_exceptions.md R321): it holds after `new()`, and every step, host move and
accepted load keeps it, so every state of every run meets it. -/

namespace Sys2Proof.Machine

theorem State.resetWith_inv (p : Params) : (State.resetWith p).Inv := by
  refine ⟨Memory.wf_nil _, (by decide : (0x0000#16).toNat ≤ 0x10FE), fun v hv => ?_, nofun⟩
  have hstack : (State.resetWith p).stack.toList = List.replicate 48 0x0000#16 := Vector.toList_replicate
  rw [hstack] at hv
  rw [List.eq_of_mem_replicate hv]
  decide

/-- Settles O15: after `new()` memory lists nothing, the pc is 0, every stack entry is 0 and no fault is set. -/
theorem invariantAtReset : Obligations.InvariantAtReset := ⟨State.resetWith_inv _, State.resetWith_inv⟩

/-- The pc after a step is at most 0x10FE, the largest target of a JumpWithOffset (R26). -/
theorem State.pcAfter_le (s : State) (i : Instr) (hp : s.pc.toNat ≤ 0x0FFE)
    (hstack : ∀ v ∈ s.stack.toList, v.toNat ≤ 0x1000) : (s.pcAfter i).toNat ≤ 0x10FE := by
  have hnext : (s.pc + 2#16).toNat ≤ 0x10FE := by rw [BitVec.toNat_add, BitVec.toNat_ofNat]; omega
  have hskip : (s.pc + 4#16).toNat ≤ 0x10FE := by rw [BitVec.toNat_add, BitVec.toNat_ofNat]; omega
  cases i with
  | jump nnn | call nnn =>
    have := nnn.isLt
    exact (zext16OfAddr_toNat nnn).trans_le (by omega)
  | jumpWithOffset nnn =>
    have hn := nnn.isLt
    have hv := (s.readReg 0x0#4).isLt
    exact (zext16OfByte_add_zext16OfAddr_toNat _ nnn).trans_le (by omega)
  | ret z =>
    rw [State.pcAfter]
    rcases Nat.lt_or_ge (s.sp.val - 1) s.stack.toList.length with h | h
    · rw [List.getD_eq_getElem _ _ h]
      exact (hstack _ (List.getElem_mem h)).trans (by decide)
    · rw [List.getD_eq_default _ _ h]
      decide
  | skipIfEqualImmediate | skipIfNotEqualImmediate | skipIfRegistersEqual | skipIfRegistersNotEqual | skipIfKeyPressed
  | skipIfKeyNotPressed =>
    rw [State.pcAfter]
    split
    · exact hskip
    · exact hnext
  | getKey =>
    rw [State.pcAfter]
    split
    · exact hnext
    · omega
  | _ => exact hnext

/-- Every entry of the stack after a completed instruction is an entry of the stack before it or the post-fetch pc. -/
theorem Completes.stack_entries {i : Instr} {s t : State} (hexec : exec i s = .next t) (hc : Completes i s t) :
    ∀ v ∈ t.stack.toList, v ∈ s.stack.toList ∨ v = s.pc := by
  intro v hv
  by_cases hstack : t.stack = s.stack
  · rw [hstack] at hv
    exact .inl hv
  · obtain ⟨nnn, rfl⟩ | ⟨z, rfl⟩ := stack_mem_partsWritten (hc.part_mem (p := .stack) fun h => hstack h.2)
    · obtain ⟨hsp, -⟩ | ⟨_, _, hcall⟩ := exec_call_cases s nnn
      · exact absurd ⟨rfl, rfl, hsp⟩ (hc.noFault .stackOverflow none)
      · rw [← Host.Outcome.next.inj (hcall.symm.trans hexec), State.setPc_stack, Vector.toList_set] at hv
        exact List.mem_or_eq_of_mem_set hv
    · exact absurd (exec_ret_stack hexec) hstack

/-- Settles O16: a fault changes the fault status alone, to a record of its shape that names the pc; a completed
instruction keeps memory canonical, leaves a pc the step may leave, and pushes nothing but a post-fetch pc. -/
theorem stepKeepsTheInvariant : Obligations.StepKeepsTheInvariant := by
  rintro s t ⟨hwf, hpc, hstack, -⟩ hstep
  obtain ⟨hf, ⟨r, hfaults, rfl⟩ | ⟨hp, hexec, hcompletes⟩⟩ := step_next_cases hstep
  · refine ⟨hwf, hpc, hstack, fun r' hr => ?_⟩
    obtain rfl : r = r' := Option.some.inj hr
    exact ⟨hfaults.wf, hfaults.addr⟩
  · refine ⟨hcompletes.memWf hwf, ?_, fun v hv => ?_, fun r hr => ?_⟩
    · rw [hcompletes.pc hexec]
      exact s.pcAfter_le _ hp hstack
    · obtain hold | rfl := hcompletes.stack_entries hexec v hv
      · exact hstack v hold
      · rw [State.advancePc_pc, BitVec.toNat_add, BitVec.toNat_ofNat]
        omega
    · rw [hcompletes.fault, State.advancePc_fault, hf] at hr
      cases hr

/-- A host move writes none of the state the invariant speaks of. -/
theorem State.Inv.hostMove {s : State} (h : s.Inv) (m : HostMove) : (s.hostMove m).Inv := by
  cases m <;> exact h

theorem State.Inv.load {s t : State} {bytes : List Byte} (h : s.Inv) (hf : s.fault = none)
    (hload : s.load bytes = .accepted t) : t.Inv := by
  obtain ⟨hwf, -, hstack, -⟩ := h
  rcases Nat.lt_or_ge 3584 bytes.length with hlong | hlen
  · rw [s.load_of_too_large hlong] at hload
    cases hload
  · obtain ⟨m, hacc, hblock⟩ := s.load_of_fits hlen
    obtain rfl : _ = t := LoadResult.accepted.inj (hacc.symm.trans hload)
    exact ⟨(hblock hwf).memWf, (by decide : (0x0200#16).toNat ≤ 0x10FE), hstack,
      fun r hr => nomatch hf.symm.trans hr⟩

/-- Settles O17: host moves write timers and keys; an accepted load stores a block, which keeps memory canonical, and sets
the pc to 0x200. -/
theorem hostKeepsTheInvariant : Obligations.HostKeepsTheInvariant :=
  ⟨fun _ m h => h.hostMove m, fun _ _ _ h hf hload => h.load hf hload⟩

/-- Settles O18, by induction on the run: the launch state is a load of the state after `new()`. -/
theorem reachableStatesMeetTheInvariant : Obligations.ReachableStatesMeetTheInvariant := by
  intro p bytes s hs
  induction hs with
  | launch s hlaunch => exact (State.resetWith_inv p).load rfl hlaunch
  | step s t _ hstep ih => exact stepKeepsTheInvariant s t ih hstep
  | host s m _ ih => exact ih.hostMove m

end Sys2Proof.Machine
end

section
/-! What no instruction reads: ST, and the stack entries at or above sp (48_timers_keys.md R300, R304; 10_state.md R28).
Every operation but a push, a pop and a write of ST commutes with a change of ST and of the stack's contents. -/

namespace Sys2Proof.Machine

/-- `s` with ST and the contents of the stack changed by `g` and `h`. -/
def State.mapHidden (g : Byte → Byte) (h : Vector Word 48 → Vector Word 48) (s : State) : State :=
  { s with ST := g s.ST, stack := h s.stack }

/-- The same change made to the state that an outcome answers. -/
def mapNext (f : State → State) : Host.Outcome State Fault Refusal → Host.Outcome State Fault Refusal
  | .next t => .next (f t)
  | .fault r => .fault r
  | .refused r => .refused r

section Commutes
variable (g : Byte → Byte) (h : Vector Word 48 → Vector Word 48)

theorem State.mapHidden_memWrite (s : State) (ea : Nat) (v : Byte) :
    (s.mapHidden g h).memWrite ea v = (s.memWrite ea v).map (State.mapHidden g h) := by
  unfold State.memWrite
  split <;> rfl

theorem State.mapHidden_storeBytes (s : State) (ea : Nat) (vs : List Byte) :
    (s.mapHidden g h).storeBytes ea vs = (s.storeBytes ea vs).map (State.mapHidden g h) := by
  induction vs generalizing s ea with
  | nil => rfl
  | cons v vs ih =>
    simp only [State.storeBytes, State.mapHidden_memWrite]
    cases s.memWrite ea v with
    | error bad => rfl
    | ok t => exact ih t (ea + 1)

theorem State.mapHidden_loadLoop (s : State) (ks : List Nat) :
    (s.mapHidden g h).loadLoop ks = (s.loadLoop ks).map (State.mapHidden g h) := by
  induction ks generalizing s with
  | nil => rfl
  | cons k ks ih =>
    have hread : (s.mapHidden g h).memRead ((s.mapHidden g h).indexAddr k) = s.memRead (s.indexAddr k) := rfl
    simp only [State.loadLoop, hread]
    cases s.memRead (s.indexAddr k) with
    | error bad => rfl
    | ok v => exact ih (s.writeReg (BitVec.ofNat 4 k) v)

theorem State.mapHidden_drawBit (s : State) (bit : Bool) (j : Nat) :
    (s.mapHidden g h).drawBit bit j = (s.drawBit bit j).mapHidden g h := by
  have hpixel : (s.mapHidden g h).pixel j = s.pixel j := rfl
  rw [State.drawBit, State.drawBit, hpixel]
  cases bit with
  | false => rfl
  | true => cases s.pixel j <;> rfl

theorem State.mapHidden_drawRow (s : State) (row : Byte) (cx y : Nat) (cs : List Nat) :
    (s.mapHidden g h).drawRow row cx y cs = (s.drawRow row cx y cs).mapHidden g h := by
  induction cs generalizing s with
  | nil => rfl
  | cons c cs ih =>
    simp only [State.drawRow, State.mapHidden_drawBit]
    split
    · rfl
    · exact ih _

theorem State.mapHidden_drawRows (s : State) (cx cy : Nat) (rs : List Nat) :
    (s.mapHidden g h).drawRows cx cy rs = (s.drawRows cx cy rs).map (State.mapHidden g h) := by
  induction rs generalizing s with
  | nil => rfl
  | cons r rs ih =>
    have hread : (s.mapHidden g h).memRead ((s.mapHidden g h).indexAddr r) = s.memRead (s.indexAddr r) := rfl
    simp only [State.drawRows, hread, State.mapHidden_drawRow]
    split
    · rfl
    · cases s.memRead (s.indexAddr r) with
      | error bad => rfl
      | ok row => exact ih _

theorem State.mapHidden_finishAccess (s : State) (i : Instr) {e e' : Except Nat State}
    (he : e' = e.map (State.mapHidden g h)) :
    (s.mapHidden g h).finishAccess i e' = mapNext (State.mapHidden g h) (s.finishAccess i e) := by
  rw [he]
  cases e <;> rfl

theorem State.mapHidden_skipIf (s : State) (c : Bool) :
    (s.mapHidden g h).skipIf c = (s.skipIf c).mapHidden g h := by
  cases c <;> rfl

/-- An instruction other than Call, Return and WriteSound neither reads nor writes ST or the stack. -/
theorem exec_mapHidden {i : Instr} (hstack : .stack ∉ partsWritten i) (hsound : .sound ∉ partsWritten i) (s : State) :
    exec i (s.mapHidden g h) = mapNext (State.mapHidden g h) (exec i s) := by
  cases i with
  | call | ret | writeSound => simp [partsWritten] at hstack hsound
  | skipIfEqualImmediate | skipIfNotEqualImmediate | skipIfRegistersEqual | skipIfRegistersNotEqual | skipIfKeyPressed
  | skipIfKeyNotPressed => exact congrArg Host.Outcome.next (s.mapHidden_skipIf g h _)
  | getKey ra =>
    obtain ⟨k, -, hk, hbelow⟩ | ⟨-, hnone⟩ := s.firstPressed_cases
    · rw [exec_getKey_of_lowest ra hk hbelow, exec_getKey_of_lowest (s := s.mapHidden g h) ra hk hbelow]
      rfl
    · rw [exec_getKey_of_none ra hnone, exec_getKey_of_none (s := s.mapHidden g h) ra hnone]
      rfl
  | addIndex ra =>
    have hsum : (s.mapHidden g h).indexSum ra = s.indexSum ra := rfl
    rw [exec_addIndex, exec_addIndex, hsum]
    split <;> rfl
  | storeBCD ra | storeRegisters ra => exact s.mapHidden_finishAccess g h _ (s.mapHidden_storeBytes g h _ _)
  | loadRegisters ra => exact s.mapHidden_finishAccess g h _ (s.mapHidden_loadLoop g h _)
  | draw ra rb n => exact s.mapHidden_finishAccess g h _ ((s.writeReg vf 0x00#8).mapHidden_drawRows g h _ _ _)
  | _ => rfl

end Commutes

theorem State.setST_push (s : State) (v : Byte) (w : Word) :
    (s.setST v).push w = (s.push w).map fun t => t.setST v := by
  by_cases hsp : s.sp.val < 48 <;> simp [State.push, hsp, State.setST]

theorem State.setST_pop (s : State) (v : Byte) : (s.setST v).pop = s.pop.map fun p => (p.1, p.2.setST v) := by
  by_cases hsp : s.sp.val = 0 <;> simp [State.pop, hsp, State.setST]

/-- Every instruction but WriteSound commutes with a change of ST. -/
theorem exec_setST {i : Instr} (hsound : .sound ∉ partsWritten i) (s : State) (v : Byte) :
    exec i (s.setST v) = mapNext (fun t => t.setST v) (exec i s) := by
  by_cases hstack : .stack ∈ partsWritten i
  · obtain ⟨nnn, rfl⟩ | ⟨z, rfl⟩ := stack_mem_partsWritten hstack
    · simp only [exec, execCall, State.setST_pc, State.setST_push]
      cases s.push s.pc <;> rfl
    · simp only [exec, execReturn, State.setST_pop]
      cases s.pop <;> rfl
  · exact exec_mapHidden (fun _ => v) id hstack hsound s

/-- A step on a state that differs from `s` in what the fetch does not read is the execution of the instruction at the pc
of `s`. -/
theorem step_mapHidden (g : Byte → Byte) (h : Vector Word 48 → Vector Word 48) {s : State} (hf : s.fault = none)
    (hp : s.pc.toNat ≤ 0x0FFE) :
    step (s.mapHidden g h) = exec s.currentInstr (s.advancePc.mapHidden g h) :=
  step_eq_exec_currentInstr (s := s.mapHidden g h) hf hp

/-- Settles O24: WriteSound overwrites ST, and every other instruction commutes with a change of it, as the fetch does. -/
theorem soundTimerIsNeverRead : Obligations.SoundTimerIsNeverRead := by
  intro s t v hstep
  obtain ⟨hf, ⟨hp, rfl⟩ | ⟨hp, hexec⟩⟩ := step_cases hstep
  · exact ⟨_, step_of_fetch_out_of_bounds (s := s.setST v) hf hp, rfl⟩
  · have hstep' : step (s.setST v) = exec s.currentInstr (s.advancePc.setST v) :=
      step_mapHidden (fun _ => v) id hf hp
    by_cases hsound : .sound ∈ partsWritten s.currentInstr
    · obtain ⟨ra, hi⟩ := sound_mem_partsWritten hsound
      rw [hi, exec_writeSound] at hexec
      rw [hi, exec_writeSound] at hstep'
      exact ⟨_, hstep', by rw [← Host.Outcome.next.inj hexec]; rfl⟩
    · rw [exec_setST hsound, hexec] at hstep'
      exact ⟨_, hstep', rfl⟩

/-- A stack entry other than the one that was set. -/
theorem getD_toList_set_of_ne (st : Vector Word 48) {j k : Nat} (hj : j < 48) (hne : j ≠ k) (v : Word) :
    (st.set j v).toList.getD k 0 = st.toList.getD k 0 := by
  rw [Vector.toList_set, List.getD_eq_getElem?_getD, List.getElem?_set_ne hne, ← List.getD_eq_getElem?_getD]

theorem getD_toList_set_same (st : Vector Word 48) {j : Nat} (hj : j < 48) (v : Word) :
    (st.set j v).toList.getD j 0 = v := by
  rw [Vector.toList_set, List.getD_eq_getElem _ _ (by simpa using hj), List.getElem_set_self]

/-- Only Call and Return do not commute with a change of the stack's contents. -/
theorem exec_mapStack {i : Instr} (hstack : .stack ∉ partsWritten i) (h : Vector Word 48 → Vector Word 48) (s : State) :
    exec i (s.mapHidden id h) = mapNext (State.mapHidden id h) (exec i s) := by
  by_cases hsound : .sound ∈ partsWritten i
  · obtain ⟨ra, rfl⟩ := sound_mem_partsWritten hsound
    rfl
  · exact exec_mapHidden id h hstack hsound s

theorem exec_sp_of_stack_not_mem {i : Instr} (hstack : .stack ∉ partsWritten i) {s t : State}
    (hexec : exec i s = .next t) : t.sp = s.sp := by
  obtain ⟨_, _, -, hraise⟩ | ⟨u, hexec', hcompletes⟩ := exec_cases i s
  · rw [← Host.Outcome.next.inj (hraise.symm.trans hexec), State.takeFault_sp]
  · obtain rfl : u = t := Host.Outcome.next.inj (hexec'.symm.trans hexec)
    exact (hcompletes.parts .stack hstack).1

/-- `t'` is `t` but for the stack entries at or above its sp. -/
def AgreeOnLiveStack (t t' : State) : Prop :=
  { t' with stack := t.stack } = t ∧ ∀ k, k < t.sp.val → t'.stack.toList.getD k 0 = t.stack.toList.getD k 0

section DeadEntry
variable {s t : State} {j : Nat} (hj : j < 48) (v : Word) (hdead : s.sp.val ≤ j)
include hdead

/-- A Call with a dead entry changed: there is room on the stack, and the push covers the entry or leaves it dead. -/
theorem exec_call_dead_entry {nnn : Addr12} (hexec : exec (.call nnn) s = .next t) :
    ∃ t', exec (.call nnn) { s with stack := s.stack.set j v } = .next t' ∧ AgreeOnLiveStack t t' := by
  obtain ⟨hfull, -⟩ | ⟨hlt, _, hcall⟩ := exec_call_cases s nnn
  · omega
  obtain ⟨hfull, -⟩ | ⟨_, _, hcall'⟩ := exec_call_cases { s with stack := s.stack.set j v } nnn
  · exact absurd hfull (Nat.ne_of_lt hlt)
  obtain rfl : _ = t := Host.Outcome.next.inj (hcall.symm.trans hexec)
  refine ⟨_, hcall', rfl, fun k hk => ?_⟩
  have hk : k < s.sp.val + 1 := hk
  simp only [State.setPc_stack]
  by_cases hnew : s.sp.val = k
  · subst hnew
    rw [getD_toList_set_same _ hlt, getD_toList_set_same _ hlt]
  · rw [getD_toList_set_of_ne _ hlt hnew, getD_toList_set_of_ne _ hlt hnew, getD_toList_set_of_ne _ hj (by omega)]

/-- A Return with a dead entry changed: the entry it goes to is a live one. -/
theorem exec_ret_dead_entry {z : Nibble} (hexec : exec (.ret z) s = .next t) :
    ∃ t', exec (.ret z) { s with stack := s.stack.set j v } = .next t' ∧ AgreeOnLiveStack t t' := by
  obtain ⟨hempty, hraise⟩ | ⟨hlt, _, hsp, hret⟩ := exec_ret_cases s z <;>
    obtain ⟨hempty', hraise'⟩ | ⟨_, _, hsp', hret'⟩ := exec_ret_cases { s with stack := s.stack.set j v } z
  · obtain rfl : _ = t := Host.Outcome.next.inj (hraise.symm.trans hexec)
    exact ⟨_, hraise', rfl, fun k hk => absurd hk (by rw [State.takeFault_sp, hempty]; omega)⟩
  · exact absurd hempty hsp'
  · exact absurd hempty' hsp
  · obtain rfl : _ = t := Host.Outcome.next.inj (hret.symm.trans hexec)
    have htarget : (s.stack.set j v)[s.sp.val - 1] = s.stack[s.sp.val - 1] :=
      Vector.getElem_set_ne hj hlt (by omega)
    refine ⟨_, hret', by rw [htarget]; rfl, fun k hk => ?_⟩
    have hk : k < s.sp.val - 1 := hk
    exact getD_toList_set_of_ne _ hj (by omega) v

/-- Every instruction, on a machine with a dead stack entry changed, answers the same state but for dead entries. -/
theorem exec_dead_entry {i : Instr} (hexec : exec i s = .next t) :
    ∃ t', exec i { s with stack := s.stack.set j v } = .next t' ∧ AgreeOnLiveStack t t' := by
  by_cases hstack : .stack ∈ partsWritten i
  · obtain ⟨nnn, rfl⟩ | ⟨z, rfl⟩ := stack_mem_partsWritten hstack
    · exact exec_call_dead_entry hj v hdead hexec
    · exact exec_ret_dead_entry hj v hdead hexec
  · have hcommutes := exec_mapStack hstack (fun st => st.set j v) s
    rw [hexec] at hcommutes
    refine ⟨_, hcommutes, rfl, fun k hk => ?_⟩
    rw [exec_sp_of_stack_not_mem hstack hexec] at hk
    exact getD_toList_set_of_ne _ hj (by omega) v

end DeadEntry

/-- Settles O25: the fetch reads no stack entry, and no instruction reads a dead one. -/
theorem deadStackEntriesAreNeverRead : Obligations.DeadStackEntriesAreNeverRead := by
  intro s t j hj v hdead hstep
  obtain ⟨hf, ⟨hp, rfl⟩ | ⟨hp, hexec⟩⟩ := step_cases hstep
  · exact ⟨_, step_of_fetch_out_of_bounds (s := { s with stack := s.stack.set j v }) hf hp, rfl,
      fun k hk => getD_toList_set_of_ne _ hj (Nat.ne_of_gt (Nat.lt_of_lt_of_le hk hdead)) v⟩
  · have hstep' : step { s with stack := s.stack.set j v } =
        exec s.currentInstr { s.advancePc with stack := s.stack.set j v } :=
      step_mapHidden id (fun st => st.set j v) hf hp
    rw [hstep']
    exact exec_dead_entry (s := s.advancePc) hj v hdead hexec

end Sys2Proof.Machine
end
